-- ==== Sys2Proof/Word.lean ====
section
/-!
DEFINITION. The vocabulary of the block: bytes, the two data types of 10_state.md R11 (CalendarTime and
RegisterImage), and the levels the host puts on the input ports (R19). A 1-bit level is a `Bool`: `true` is
1, high, deasserted for the three active-low lines (R13, R14).
-/

namespace Sys2Proof

/-- A transported byte (W_BYTE = 8, 00_scope.md R4). -/
abbrev Byte := BitVec 8

/-- CalendarTime: eight unsigned 8-bit fields, in the order of the register image (R11). -/
structure CalendarTime where
  subsec : Byte
  second : Byte
  minute : Byte
  hour   : Byte
  dow    : Byte
  date   : Byte
  month  : Byte
  year   : Byte
deriving DecidableEq, Repr, Inhabited

/-- RegisterImage: 8 bytes indexed 0..7 (R11, R15): sub-seconds, seconds, minutes, hours, day-of-week with
the oscillator flag, date, month, year (R42). -/
structure RegisterImage where
  b0 : Byte
  b1 : Byte
  b2 : Byte
  b3 : Byte
  b4 : Byte
  b5 : Byte
  b6 : Byte
  b7 : Byte
deriving DecidableEq, Repr, Inhabited

/-- The levels on the host's input ports in one step (R19): `rst`, `cmd[1:0]`, `ct_in[63:0]`, `enc_d`,
`dec_b`, `dp_b`. The seventh input, `dq_in`, is seen only by `DQ_SMP` and is drawn there (R131). -/
structure InputFrame where
  rst  : Bool
  cmd  : BitVec 2
  ctIn : BitVec 64
  encD : Byte
  decB : Byte
  dpB  : Byte
deriving DecidableEq, Repr, Inhabited

end Sys2Proof
end

