-- ==== Sys2Proof/Syntax.lean ====
section
/-!
DEFINITION. The 23 operations of 30_encoding.md R80, one constructor per row of spec/opcode_table.json.
-/

namespace Sys2Proof

/-- An operation of the block with its operands (R80). Operands that are "not in the code" are arguments. -/
inductive Instr where
  -- commands (class 00)
  | nop
  | rdcyc
  | wrcyc (ct : CalendarTime)
  -- micro-operations (class 01)
  | ceLo
  | ceHi
  | oeLo
  | oeHi
  | weLo
  | weHi
  | dqIn
  | dqOut
  | dqDrv (b : Bool)
  | dqSmp
  -- procedures (class 10)
  | wrbit (b : Bool)
  | rdbit
  | sendb (v : Byte)
  | recvb
  | wake
  -- codec functions (class 11)
  | bcdenc (d : Byte)
  | bcddec (b : Byte)
  | digpair (b : Byte)
  | regenc (ct : CalendarTime)
  | regdec (img : RegisterImage)
deriving DecidableEq, Repr

end Sys2Proof
end

