-- ==== Sys2Proof/Decode.lean ====
section
/-!
DEFINITION. The operation identifiers of 30_encoding.md R80 and their decoder, total on any bytes, and the encoder.
A word is one opid byte followed by the operand bytes of an operation whose operand is "not in the code" of the
table (log entry 6): a bit in bit 0 of one byte, a byte as itself, a 64-bit value as 8 bytes, bits [7:0] first.
-/

namespace Sys2Proof

/-- Why the decoder refuses some bytes. -/
inductive DecodeError where
  /-- no byte to decode -/
  | noBytes
  /-- the opid is not in the table of R80 (R82: "a decoder ... must answer invalid") -/
  | invalidOpid (op : Byte)
  /-- the bytes end inside the operand -/
  | shortOperand
  /-- a 1-bit operand's byte has a bit set above bit 0 -/
  | operandBits (b : Byte)
deriving DecidableEq, Repr

/-- The opid byte of an operation (R80): class in bits 7..6, index in the class in bits 5..0. -/
def opid : Instr → Byte
  | .nop => 0x00
  | .rdcyc => 0x01
  | .wrcyc _ => 0x02
  | .ceLo => 0x40
  | .ceHi => 0x41
  | .oeLo => 0x42
  | .oeHi => 0x43
  | .weLo => 0x44
  | .weHi => 0x45
  | .dqIn => 0x46
  | .dqOut => 0x47
  | .dqDrv b => if b then 0x49 else 0x48
  | .dqSmp => 0x4A
  | .wrbit _ => 0x80
  | .rdbit => 0x81
  | .sendb _ => 0x82
  | .recvb => 0x83
  | .wake => 0x84
  | .bcdenc _ => 0xC0
  | .bcddec _ => 0xC1
  | .digpair _ => 0xC2
  | .regenc _ => 0xC3
  | .regdec _ => 0xC4

/-- The byte that holds a 1-bit operand. -/
def bitByte (b : Bool) : Byte := if b then 1 else 0

/-- A CalendarTime as 8 bytes, in the order of the `ct_in` port from bit 0 up (R11). -/
def CalendarTime.toBytes (ct : CalendarTime) : List Byte :=
  [ct.subsec, ct.second, ct.minute, ct.hour, ct.dow, ct.date, ct.month, ct.year]

/-- A RegisterImage as 8 bytes in index order (R43). -/
def RegisterImage.toBytes (img : RegisterImage) : List Byte :=
  [img.b0, img.b1, img.b2, img.b3, img.b4, img.b5, img.b6, img.b7]

/-- The operand bytes that follow the opid (log entry 6). -/
def operandBytes : Instr → List Byte
  | .nop => []
  | .rdcyc => []
  | .wrcyc ct => ct.toBytes
  | .ceLo => []
  | .ceHi => []
  | .oeLo => []
  | .oeHi => []
  | .weLo => []
  | .weHi => []
  | .dqIn => []
  | .dqOut => []
  | .dqDrv _ => []
  | .dqSmp => []
  | .wrbit b => [bitByte b]
  | .rdbit => []
  | .sendb v => [v]
  | .recvb => []
  | .wake => []
  | .bcdenc d => [d]
  | .bcddec b => [b]
  | .digpair b => [b]
  | .regenc ct => ct.toBytes
  | .regdec img => img.toBytes

/-- Hand one operand byte to `f`. -/
def withByte (f : Byte → Instr) : List Byte → Except DecodeError (Instr × List Byte)
  | v :: rest => .ok (f v, rest)
  | [] => .error .shortOperand

/-- Hand a 1-bit operand to `f`; the seven upper bits of its byte carry nothing and must be 0. -/
def withBit (f : Bool → Instr) : List Byte → Except DecodeError (Instr × List Byte)
  | v :: rest => if v.toNat < 2 then .ok (f (v.toNat == 1), rest) else .error (.operandBits v)
  | [] => .error .shortOperand

/-- Hand eight operand bytes, the first one for bits [7:0], to `f`. -/
def withEight (f : Byte → Byte → Byte → Byte → Byte → Byte → Byte → Byte → Instr) :
    List Byte → Except DecodeError (Instr × List Byte)
  | v0 :: v1 :: v2 :: v3 :: v4 :: v5 :: v6 :: v7 :: rest => .ok (f v0 v1 v2 v3 v4 v5 v6 v7, rest)
  | _ => .error .shortOperand

/-- Read one operation from the front of `bs`, and give the bytes after it (R80, R82). -/
def decode : List Byte → Except DecodeError (Instr × List Byte)
  | [] => .error .noBytes
  | op :: rest =>
    match op.toNat with
    | 0x00 => .ok (.nop, rest)
    | 0x01 => .ok (.rdcyc, rest)
    | 0x02 => withEight (fun a b c d e f g h => .wrcyc ⟨a, b, c, d, e, f, g, h⟩) rest
    | 0x40 => .ok (.ceLo, rest)
    | 0x41 => .ok (.ceHi, rest)
    | 0x42 => .ok (.oeLo, rest)
    | 0x43 => .ok (.oeHi, rest)
    | 0x44 => .ok (.weLo, rest)
    | 0x45 => .ok (.weHi, rest)
    | 0x46 => .ok (.dqIn, rest)
    | 0x47 => .ok (.dqOut, rest)
    | 0x48 => .ok (.dqDrv false, rest)
    | 0x49 => .ok (.dqDrv true, rest)
    | 0x4A => .ok (.dqSmp, rest)
    | 0x80 => withBit .wrbit rest
    | 0x81 => .ok (.rdbit, rest)
    | 0x82 => withByte .sendb rest
    | 0x83 => .ok (.recvb, rest)
    | 0x84 => .ok (.wake, rest)
    | 0xC0 => withByte .bcdenc rest
    | 0xC1 => withByte .bcddec rest
    | 0xC2 => withByte .digpair rest
    | 0xC3 => withEight (fun a b c d e f g h => .regenc ⟨a, b, c, d, e, f, g, h⟩) rest
    | 0xC4 => withEight (fun a b c d e f g h => .regdec ⟨a, b, c, d, e, f, g, h⟩) rest
    | _ => .error (.invalidOpid op)

/-- The bytes of an operation. -/
def encode (i : Instr) : List Byte := opid i :: operandBytes i

/-- The instruction the decoder reads from a word of `nbits` bits numbered as spec/opcode_table.json numbers
them: byte `k` of the instruction is bits [8k+7:8k] of `w`, and every bit above `nbits` is 0. Nine bytes are
the longest instruction (an opid and a 64-bit operand). -/
def decodeTableWord (nbits w : Nat) : Option Instr :=
  match decode ((List.range 9).map fun k => BitVec.ofNat 8 ((w % 2 ^ nbits) / 2 ^ (8 * k))) with
  | .ok (i, _) => some i
  | .error _ => none

end Sys2Proof
end

