-- ==== Sys2Proof/Config.lean ====
section
/-!
DEFINITION. What an implementation or the environment fixes and the spec leaves open. Every constant here is
opaque: nothing can be proved of its value, so a statement holds whatever it is.
-/

namespace Sys2Proof

/-- The bit the environment answers to sample number `n` where `State.answers` lists none: a free draw,
"one bit supplied by the environment, on which the block puts no condition whatever" (R131). Log entry 3. -/
opaque Config.freeDraw : Nat → Bool

/-- The levels the host puts on the input ports in step number `n` where `State.inputs` lists none (R19,
R226). Log entry 4. -/
opaque Config.freeInput : Nat → InputFrame

/-- `IMG` after a reset performed in step number `n`: unspecified (R26, U11). Log entry 2. -/
opaque Config.freeImage : Nat → RegisterImage

/-- `SHR` after a reset performed in step number `n`: unspecified (R26, U11). Log entry 2. -/
opaque Config.freeShift : Nat → Byte

/-- Parameter `T_EDGE` (R4, R283): the minimum separation of two micro-operations. No rule reads it. -/
opaque Config.tEdge : Nat

/-- Parameter `STEP` (R4, R5): the duration of a step. No rule reads it. -/
opaque Config.stepDuration : Nat

/-- Parameter `PIN_MAP` (R4): which physical pin carries `ce_n`, `oe_n`, `we_n`, `dq` (numbered 0 to 3). No
rule reads it. -/
opaque Config.pinMap : Fin 4 → Nat

end Sys2Proof
end

