-- ==== Sys2Proof/Machine/State.lean ====
section
/-!
DEFINITION. The state of the block (10_state.md R10), plain data, and its value after reset (R26). The fields from
`ports` on are the model's own: they carry the host's inputs, the environment's answers and the values operations
return, none of which is state of the block (R10, R19).
-/

namespace Sys2Proof.Machine

/-- The pin register `PIN`, DOC0's LineState (R12). `true` is level 1. The three control lines are active low
(R13); `dqDir = true` is output (R14). -/
structure Pins where
  ceN   : Bool
  oeN   : Bool
  weN   : Bool
  dqDir : Bool
  dqOut : Bool
deriving DecidableEq, Repr, Inhabited

/-- The sequencer position `SEQ`: `IDLE`, or `RUN(n)` with `n` the index of the next micro-operation of the
current cycle's trace (R16). -/
inductive Seq where
  | idle
  | run (n : Nat)
deriving DecidableEq, Repr, Inhabited

/-- The value each operation with a result last returned (the result column of R80): the bit of `DQ_SMP` and
`RDBIT`, the byte of `RECVB`, the results of the five codec functions. The model's own (log entry 5). -/
structure Returned where
  bit      : Bool
  byte     : Byte
  enc      : Byte
  dec      : Byte
  digHi    : Byte
  digLo    : Byte
  image    : RegisterImage
  calendar : CalendarTime
deriving DecidableEq, Repr, Inhabited

/-- The state. The first seven fields are the seven elements of R10. -/
structure State where
  /-- the pin register (R12) -/
  pins    : Pins
  /-- `IMG[0..7]` (R15) -/
  img     : RegisterImage
  /-- `SHR` (R17) -/
  shr     : Byte
  /-- `SEQ` (R16) -/
  seq     : Seq
  /-- a cycle is running (R18) -/
  busy    : Bool
  /-- `IMG` holds the complete image of the last finished cycle (R18) -/
  valid   : Bool
  /-- which cycle: `false` = 0 = read, `true` = 1 = write (R18) -/
  kind    : Bool
  /-- the levels on the input ports in the current step (R19); the model's own -/
  ports   : InputFrame
  /-- what the host presents on the input ports in the coming steps (R86); the model's own -/
  inputs  : List InputFrame
  /-- the number of steps taken: the index of the free values of a step; the model's own -/
  ticks   : Nat
  /-- the bits the environment answers to the coming samples (R86); the model's own -/
  answers : List Bool
  /-- the number of samples taken: the index of the free draws (R131); the model's own -/
  drawn   : Nat
  /-- the value each operation last returned (R80); the model's own -/
  ret     : Returned
deriving DecidableEq, Repr

/-- Why a step stops. The spec has no fault (R240, R246). -/
inductive Fault where
  /-- Raised by a run step (`Sequencer`) whose `SEQ` names no micro-operation of the cycle: `busy = 1` with
  `SEQ = IDLE` or with an index past the end. R16 and R18 exclude such a state and no run reaches one; stopping
  there is safe. -/
  | noMicroOp (kind : Bool) (seq : Seq)
deriving DecidableEq, Repr

/-- Why an instruction has no meaning. -/
inductive Refusal where
  /-- Raised by an arm of `exec` for an instruction that has no meaning yet. No arm does. Safe. -/
  | notModelled (mnemonic : String)
deriving DecidableEq, Repr

/-- The rest levels of the pins after reset (R26): the control lines deasserted, the data line an input, the
latch `DQ_OUT_RESET = 0`. Pin vector `11100`. -/
def Pins.reset : Pins :=
  { ceN := true, oeN := true, weN := true, dqDir := false, dqOut := false }

/-- The image of eight bytes `00`. -/
def zeroImage : RegisterImage := ⟨0, 0, 0, 0, 0, 0, 0, 0⟩

/-- The CalendarTime of eight fields 0. -/
def zeroCalendar : CalendarTime := ⟨0, 0, 0, 0, 0, 0, 0, 0⟩

/-- The machine right after reset (R26). `IMG` and `SHR` are unspecified there; the model names zero (DESIGN
CHOICE, unsafe, log entry 1). The model's own fields: nothing listed, counters and returned values 0 (DESIGN
CHOICE, log entries 3, 4, 5). -/
def State.reset : State where
  pins    := Pins.reset
  img     := zeroImage
  shr     := 0
  seq     := .idle
  busy    := false
  valid   := false
  kind    := false
  ports   := { rst := false, cmd := 0, ctIn := 0, encD := 0, decB := 0, dpB := 0 }
  inputs  := []
  ticks   := 0
  answers := []
  drawn   := 0
  ret     := { bit := false, byte := 0, enc := 0, dec := 0, digHi := 0, digLo := 0,
               image := zeroImage, calendar := zeroCalendar }

end Sys2Proof.Machine
end

