-- ==== Sys2Proof/Machine/Operands.lean ====
section
/-!
DEFINITION. Operand assembly (30_encoding.md R73): the bits of a byte in wire order, the byte assembled from samples,
the bytes of a RegisterImage by index, and the two data types on their 64-bit ports (R11, R20).
-/

namespace Sys2Proof.Machine

/-- The eight bit or byte positions in wire order: bit 0 first (R44), byte 0 first (R43). -/
def octet : List (Fin 8) := [0, 1, 2, 3, 4, 5, 6, 7]

/-- `v[i]`: the bit that the `i`-th write-bit frame of a byte carries (R73 (a)). -/
def bitOf (v : Byte) (i : Fin 8) : Bool := v.getLsbD i.val

/-- `v` with bit `i` replaced by `b`: `SHR[i] <- b` (R17, R155). -/
def setBit (v : Byte) (i : Fin 8) (b : Bool) : Byte :=
  if b then v ||| (1#8 <<< i.val) else v &&& ~~~(1#8 <<< i.val)

/-- The received byte: the sum over `i` of `s i << i` (R73 (b), R155). -/
def assemble (s : Fin 8 → Bool) : Byte :=
  octet.foldl (fun v i => v + (if s i then 1#8 <<< i.val else 0#8)) 0#8

end Sys2Proof.Machine

namespace Sys2Proof

/-- `IMG[k]` (R15). -/
def RegisterImage.get (img : RegisterImage) : Fin 8 → Byte
  | 0 => img.b0
  | 1 => img.b1
  | 2 => img.b2
  | 3 => img.b3
  | 4 => img.b4
  | 5 => img.b5
  | 6 => img.b6
  | 7 => img.b7

/-- `IMG[k] <- v` (R15). -/
def RegisterImage.set (img : RegisterImage) (k : Fin 8) (v : Byte) : RegisterImage :=
  match k with
  | 0 => { img with b0 := v }
  | 1 => { img with b1 := v }
  | 2 => { img with b2 := v }
  | 3 => { img with b3 := v }
  | 4 => { img with b4 := v }
  | 5 => { img with b5 := v }
  | 6 => { img with b6 := v }
  | 7 => { img with b7 := v }

/-- The image whose byte `k` is `f k`. -/
def RegisterImage.ofFn (f : Fin 8 → Byte) : RegisterImage :=
  ⟨f 0, f 1, f 2, f 3, f 4, f 5, f 6, f 7⟩

/-- The 64-bit port value of an image: `IMG[k]` on bits [8k+7:8k] (R20). -/
def RegisterImage.toPort (img : RegisterImage) : BitVec 64 :=
  img.b7 ++ img.b6 ++ img.b5 ++ img.b4 ++ img.b3 ++ img.b2 ++ img.b1 ++ img.b0

/-- The CalendarTime on a 64-bit port: `subsec` [7:0], `second` [15:8], `minute` [23:16], `hour` [31:24],
`dow` [39:32], `date` [47:40], `month` [55:48], `year` [63:56] (R11). -/
def CalendarTime.ofPort (w : BitVec 64) : CalendarTime where
  subsec := w.extractLsb' 0 8
  second := w.extractLsb' 8 8
  minute := w.extractLsb' 16 8
  hour   := w.extractLsb' 24 8
  dow    := w.extractLsb' 32 8
  date   := w.extractLsb' 40 8
  month  := w.extractLsb' 48 8
  year   := w.extractLsb' 56 8

/-- The 64-bit port value of a CalendarTime (R11). -/
def CalendarTime.toPort (ct : CalendarTime) : BitVec 64 :=
  ct.year ++ ct.month ++ ct.date ++ ct.dow ++ ct.hour ++ ct.minute ++ ct.second ++ ct.subsec

end Sys2Proof
end

