-- ==== Sys2Proof/Machine/Ops.lean ====
section
/-!
DEFINITION. The shared operations on the state: the ten micro-operations on the pin register (41_bit_transport.md
R121 to R130), the sample (R130, R131), the host's inputs of a step (R19) and the reset (70_reset_and_hazards.md
R270). TAKING AN EXCEPTION has no operation here: the block has no exception, no interrupt, no trap and no return
from one (R240, R247, R249); reset is the only event that diverts the sequencer (R247).
-/

namespace Sys2Proof.Machine

/-- The ten micro-operations (R79): "every change of a pin, whoever asks for it, is one of these ten" (R120). -/
inductive MicroOp where
  | ceLo
  | ceHi
  | oeLo
  | oeHi
  | weLo
  | weHi
  | dqIn
  | dqOut
  | dqDrv (b : Bool)
  | dqSmp
deriving DecidableEq, Repr

/-- The constant `WAKE_CODE[0..7]` (R21). -/
def wakeCode : Fin 8 → Byte
  | 0 => 0xC5
  | 1 => 0x3A
  | 2 => 0xA3
  | 3 => 0x5C
  | 4 => 0xC5
  | 5 => 0x3A
  | 6 => 0xA3
  | 7 => 0x5C

/-- What a micro-operation writes in the pin register (R121 to R129). `DQ_SMP` "writes no pin" (R130). -/
def MicroOp.onPins : MicroOp → Pins → Pins
  | .ceLo, p => { p with ceN := false }
  | .ceHi, p => { p with ceN := true }
  | .oeLo, p => { p with oeN := false }
  | .oeHi, p => { p with oeN := true }
  | .weLo, p => { p with weN := false }
  | .weHi, p => { p with weN := true }
  | .dqIn, p => { p with dqDir := false }
  | .dqOut, p => { p with dqDir := true }
  | .dqDrv b, p => { p with dqOut := b }
  | .dqSmp, p => p

/-- Does the micro-operation sample `dq_in`? Only `DQ_SMP` (R130). -/
def MicroOp.samples : MicroOp → Bool
  | .ceLo => false
  | .ceHi => false
  | .oeLo => false
  | .oeHi => false
  | .weLo => false
  | .weHi => false
  | .dqIn => false
  | .dqOut => false
  | .dqDrv _ => false
  | .dqSmp => true

/-- The micro-operation as an operation of the table of R80. -/
def MicroOp.instr : MicroOp → Instr
  | .ceLo => .ceLo
  | .ceHi => .ceHi
  | .oeLo => .oeLo
  | .oeHi => .oeHi
  | .weLo => .weLo
  | .weHi => .weHi
  | .dqIn => .dqIn
  | .dqOut => .dqOut
  | .dqDrv b => .dqDrv b
  | .dqSmp => .dqSmp

/-- The 4-bit code `u[3:0]` of a micro-operation (R79). -/
def MicroOp.code : MicroOp → BitVec 4
  | .ceLo => 0x0
  | .ceHi => 0x1
  | .oeLo => 0x2
  | .oeHi => 0x3
  | .weLo => 0x4
  | .weHi => 0x5
  | .dqIn => 0x6
  | .dqOut => 0x7
  | .dqDrv b => if b then 0x9 else 0x8
  | .dqSmp => 0xA

/-- The micro-operation of a 4-bit code; `1011`..`1111` name nothing (R79, R82). -/
def MicroOp.ofCode (u : BitVec 4) : Option MicroOp :=
  match u.toNat with
  | 0x0 => some .ceLo
  | 0x1 => some .ceHi
  | 0x2 => some .oeLo
  | 0x3 => some .oeHi
  | 0x4 => some .weLo
  | 0x5 => some .weHi
  | 0x6 => some .dqIn
  | 0x7 => some .dqOut
  | 0x8 => some (.dqDrv false)
  | 0x9 => some (.dqDrv true)
  | 0xA => some .dqSmp
  | _ => none

/-- The bit the environment answers to the next sample: the next listed answer, or a free draw (R131). -/
def State.draw (s : State) : Bool :=
  match s.answers with
  | b :: _ => b
  | [] => Config.freeDraw s.drawn

/-- The bit the environment answers to the sample after the next `j` (R131). -/
def State.drawAt (s : State) (j : Nat) : Bool :=
  match s.answers[j]? with
  | some b => b
  | none => Config.freeDraw (s.drawn + j)

/-- `DQ_SMP`: take one draw and return it (R130). -/
def sample (s : State) : State :=
  { s with
    answers := s.answers.tail
    drawn := s.drawn + 1
    ret := { s.ret with bit := s.draw } }

/-- Perform one micro-operation (R120). A write of the value a field already has is performed like any other and
changes nothing (R137). -/
def performMicro (u : MicroOp) (s : State) : State :=
  let s' := if u.samples then sample s else s
  { s' with pins := u.onPins s'.pins }

/-- The levels the host presents in the next step: the next listed frame, or free levels (R19, R226). -/
def State.nextFrame (s : State) : InputFrame :=
  match s.inputs with
  | p :: _ => p
  | [] => Config.freeInput s.ticks

/-- The levels the host presents in the step after the next `j` (R19, R226). -/
def State.frameAt (s : State) (j : Nat) : InputFrame :=
  match s.inputs[j]? with
  | some p => p
  | none => Config.freeInput (s.ticks + j)

/-- Begin a step: the host's levels of this step stand on the input ports (R19). -/
def takeInputs (s : State) : State :=
  { s with
    ports := s.nextFrame
    inputs := s.inputs.tail
    ticks := s.ticks + 1 }

/-- A step with `rst` asserted: every state element of the block takes its reset value (R270, R272), `IMG` and
`SHR` an unspecified one (R26, U11; free, log entry 2). No micro-operation is performed and no sample is taken. -/
def resetBlock (s : State) : State :=
  { s with
    pins := Pins.reset
    img := Config.freeImage s.ticks
    shr := Config.freeShift s.ticks
    seq := .idle
    busy := false
    valid := false
    kind := false }

end Sys2Proof.Machine
end

