-- ==== Sys2Proof/Machine/BcdCodec.lean ====
section
/-!
DEFINITION. The BCD codec (40_bcd_codec.md): `BCDENC`, `BCDDEC`, `DIGPAIR`. "They read no state, write no state, touch no
pin" (R100): a meaning only leaves the result among the returned values.
-/

namespace Sys2Proof.Machine

/-- `BCDENC(d) = trunc_8((d / 10) * 16 + (d % 10))`, for every byte `d` (R101, R102). -/
def bcdEnc (d : Byte) : Byte := BitVec.ofNat 8 ((d.toNat / 10) * 16 + d.toNat % 10)

/-- `BCDDEC(b) = (b / 16) * 10 + (b % 16)`, for every byte `b` (R104, R105). -/
def bcdDec (b : Byte) : Byte := BitVec.ofNat 8 ((b.toNat / 16) * 10 + b.toNat % 16)

/-- `'0' + nibble`, with `'0' = 0x30` (R107, R108; the code is the spec's general knowledge, G2). -/
def digit (nibble : Nat) : Byte := BitVec.ofNat 8 (0x30 + nibble)

/-- The tens character of `DIGPAIR(b)` (R107). -/
def digHi (b : Byte) : Byte := digit (b.toNat / 16)

/-- The units character of `DIGPAIR(b)` (R107). -/
def digLo (b : Byte) : Byte := digit (b.toNat % 16)

/-- `BCDENC(d)` (R101). -/
def execBcdenc (d : Byte) (s : State) : Host.Outcome State Fault Refusal :=
  .next { s with ret := { s.ret with enc := bcdEnc d } }

/-- `BCDDEC(b)` (R104). -/
def execBcddec (b : Byte) (s : State) : Host.Outcome State Fault Refusal :=
  .next { s with ret := { s.ret with dec := bcdDec b } }

/-- `DIGPAIR(b)`, tens character first (R107). -/
def execDigpair (b : Byte) (s : State) : Host.Outcome State Fault Refusal :=
  .next { s with ret := { s.ret with digHi := digHi b, digLo := digLo b } }

end Sys2Proof.Machine
end

