-- ==== Sys2Proof/Machine/RegisterCodec.lean ====
section
/-!
DEFINITION. The register codec (44_register_codec.md): `REGDEC` and `REGENC`, pure and total (R185); no range or digit
is checked (R196, R203).
-/

namespace Sys2Proof.Machine

/-- `REGDEC(img)` (R190): `BCDDEC` of each byte, the day-of-week from the low 4 bits only (R192), the hour
unmasked (R193). -/
def regDec (img : RegisterImage) : CalendarTime where
  subsec := bcdDec img.b0
  second := bcdDec img.b1
  minute := bcdDec img.b2
  hour   := bcdDec img.b3
  dow    := bcdDec (img.b4 &&& 0x0F)
  date   := bcdDec img.b5
  month  := bcdDec img.b6
  year   := bcdDec img.b7

/-- `REGENC(ct)` (R197): the sub-second byte is always `00` (R198); no flag is OR-ed in (R199, R200). -/
def regEnc (ct : CalendarTime) : RegisterImage where
  b0 := 0x00
  b1 := bcdEnc ct.second
  b2 := bcdEnc ct.minute
  b3 := bcdEnc ct.hour
  b4 := bcdEnc ct.dow
  b5 := bcdEnc ct.date
  b6 := bcdEnc ct.month
  b7 := bcdEnc ct.year

/-- `REGENC(ct)` (R197). -/
def execRegenc (ct : CalendarTime) (s : State) : Host.Outcome State Fault Refusal :=
  .next { s with ret := { s.ret with image := regEnc ct } }

/-- `REGDEC(img)` (R190). -/
def execRegdec (img : RegisterImage) (s : State) : Host.Outcome State Fault Refusal :=
  .next { s with ret := { s.ret with calendar := regDec img } }

end Sys2Proof.Machine
end

