-- ==== Sys2Proof/Machine/Flags.lean ====
section
/-!
DEFINITION. The status flags `busy`, `valid`, `kind` and the sequencer position that goes with them (10_state.md R16,
R18): acceptance of a command and the advance of a run step. There is no other flag: "no operation computes a
carry, zero, sign or overflow indication" (R18).
-/

namespace Sys2Proof.Machine

/-- Acceptance of a cycle command: `kind <- k; valid <- 0; busy <- 1; SEQ <- RUN(0)` (R213). -/
def acceptCycle (k : Bool) (s : State) : State :=
  { s with kind := k, valid := false, busy := true, seq := .run 0 }

/-- The last index of a cycle: 501 for a read (`kind = 0`), 565 for a write (`kind = 1`) (R16, R212). -/
def lastIndex (k : Bool) : Nat := if k then 565 else 501

/-- The end of the run step at index `n`: after the last index `SEQ <- IDLE; busy <- 0; valid <- 1`, else
`SEQ <- RUN(n+1)` (R212, R223). -/
def advance (n : Nat) (s : State) : State :=
  if n = lastIndex s.kind then { s with seq := .idle, busy := false, valid := true }
  else { s with seq := .run (n + 1) }

end Sys2Proof.Machine
end

