-- ==== Sys2Proof/Machine/Trace.lean ====
section
/-!
DEFINITION. The traces of the procedures and of the two cycles (30_encoding.md R71), written as the procedure bodies of
R132, R133, R150, R155, R171, R218 and R220 nest them (R87), and the performing of a trace. Each entry carries the
place where the value read goes (R212).
-/

namespace Sys2Proof.Machine

/-- Where the value of a trace entry goes after its micro-operation (R212). -/
inductive Sink where
  /-- nowhere: a pin write, or the discarded sample of the prime frame (R172) -/
  | none
  /-- a sample inside `RECVB`: `SHR[i] <- dq_in` (R155) -/
  | toShr (i : Fin 8)
  /-- the `CE_HI` that ends a `RECVB`: `return SHR` (R155) -/
  | toRet
  /-- the `CE_HI` that ends the `k`-th `RECVB` of a read cycle: return `SHR`, and `IMG[k] <- SHR` (R219) -/
  | toImg (k : Fin 8)
deriving DecidableEq, Repr

/-- One entry of a trace: a micro-operation, and where the value it completes goes. -/
structure Slot where
  op   : MicroOp
  sink : Sink
deriving DecidableEq, Repr

/-- An entry that delivers nothing. -/
def Slot.plain (u : MicroOp) : Slot := ⟨u, .none⟩

/-- Deliver the value of an entry (R155, R212, R219). -/
def Sink.deliver : Sink → State → State
  | .none, s => s
  | .toShr i, s => { s with shr := setBit s.shr i s.ret.bit }
  | .toRet, s => { s with ret := { s.ret with byte := s.shr } }
  | .toImg k, s => { s with img := s.img.set k s.shr, ret := { s.ret with byte := s.shr } }

/-- Perform one entry. -/
def Slot.perform (x : Slot) (s : State) : State := x.sink.deliver (performMicro x.op s)

/-- Perform a trace, entry by entry, in order (R8, R58). -/
def performAll (xs : List Slot) (s : State) : State := xs.foldl (fun s x => x.perform s) s

/-- What a trace does to the pins. -/
def pinsAfter (xs : List Slot) (p : Pins) : Pins := xs.foldl (fun p x => x.op.onPins p) p

/-- `WRBIT(b)` (R132). -/
def wrbitTrace (b : Bool) : List Slot :=
  [.plain .dqOut, .plain (.dqDrv b), .plain .weLo, .plain .weHi]

/-- `RDBIT()`, its sample going to `k` (R133). -/
def rdbitTrace (k : Sink) : List Slot :=
  [.plain .oeLo, ⟨.dqSmp, k⟩, .plain .oeHi]

/-- `SENDB(v)` (R150): chip-enable, then the direction, then the 8 bits, least significant first. -/
def sendbTrace (v : Byte) : List Slot :=
  [.plain .ceLo, .plain .dqOut] ++ octet.flatMap (fun i => wrbitTrace (bitOf v i)) ++ [.plain .ceHi]

/-- `RECVB()`, its byte going to `k` (R155): the direction, then chip-enable, then the 8 bits. -/
def recvbTrace (k : Sink) : List Slot :=
  [.plain .dqIn, .plain .ceLo] ++ octet.flatMap (fun i => rdbitTrace (.toShr i)) ++ [⟨.ceHi, k⟩]

/-- Step 1 of the wake sequence, the prime frame (R171, R172): one bit read, discarded. -/
def primeTrace : List Slot :=
  [.plain .ceLo, .plain .dqIn] ++ rdbitTrace .none ++ [.plain .ceHi]

/-- `WAKE()` (R171). -/
def wakeTrace : List Slot := primeTrace ++ octet.flatMap (fun j => sendbTrace (wakeCode j))

/-- The read cycle (R218). -/
def readTrace : List Slot := wakeTrace ++ octet.flatMap (fun k => recvbTrace (.toImg k))

/-- The write cycle, sending the image (R220). -/
def writeTrace (img : RegisterImage) : List Slot :=
  wakeTrace ++ octet.flatMap (fun k => sendbTrace (img.get k))

/-- The trace of the current cycle: `kind` selects the burst (R212, R224). `IMG` does not change during a write
cycle (R61). -/
def State.trace (s : State) : List Slot := if s.kind then writeTrace s.img else readTrace

end Sys2Proof.Machine
end

