-- ==== Sys2Proof/Machine/Observe.lean ====
section
/-!
DEFINITION. What an outside observer sees (00_scope.md R6): the output ports (10_state.md R20), what a host reads under
`valid` (R15), the level the block puts on the data line (R14), and the view of the pins. The pins are watched as a film,
one glimpse for each micro-operation of a trace or step of a run (Machine/Watch.lean); of a film there is the pin waveform
with equal consecutive vectors merged (R6 (a)), the positions in it at which samples are taken (R6 (b)), and the levels
the chip takes at the falls of `we_n` (R54).
-/

namespace Sys2Proof.Machine

/-- Port `img_out`: `IMG[k]` on bits [8k+7:8k] (R20). -/
def State.imgOut (s : State) : BitVec 64 := s.img.toPort

/-- Port `ct_out = REGDEC(IMG)`, continuously (R20, R185). -/
def State.ctOut (s : State) : BitVec 64 := (regDec s.img).toPort

/-- Port `enc_b = BCDENC(enc_d)` (R20). -/
def State.encB (s : State) : Byte := bcdEnc s.ports.encD

/-- Port `dec_d = BCDDEC(dec_b)` (R20). -/
def State.decD (s : State) : Byte := bcdDec s.ports.decB

/-- Port `dp_hi`, the tens character of `DIGPAIR(dp_b)` (R20). -/
def State.dpHi (s : State) : Byte := digHi s.ports.dpB

/-- Port `dp_lo`, the units character of `DIGPAIR(dp_b)` (R20). -/
def State.dpLo (s : State) : Byte := digLo s.ports.dpB

/-- What a host that reads `img_out` learns: the image when `valid = 1`, no value when `valid = 0` (R15, R288). -/
def State.readImage (s : State) : Option RegisterImage := if s.valid then some s.img else none

/-- What a host that reads `ct_out` learns: the calendar when `valid = 1`, no value when `valid = 0` (R15, R288). -/
def State.readCalendar (s : State) : Option CalendarTime := if s.valid then some (regDec s.img) else none

/-- The level the block drives onto the data line: `dq_out` when the line is an output; none (high impedance)
when it is an input (R14). -/
def Pins.drives (p : Pins) : Option Bool := if p.dqDir then some p.dqOut else none

/-- `OSC_DIS`, bit 5 of byte 4 of an image: 0 = oscillator enabled (R75). -/
def oscDis (img : RegisterImage) : Bool := img.b4.getLsbD 5

/-- The mask of the 12/24-mode flag of byte 3, recorded and used by no operation (R76). -/
def hourModeMask : Byte := 0x80

/-- The mask of the AM/PM flag of byte 3, recorded and used by no operation (R76). -/
def amPmMask : Byte := 0x20

/-- What an observer of the pins sees of one micro-operation or step: the pin vector after it, and whether the data line
was sampled in it. -/
structure Glimpse where
  pins    : Pins
  sampled : Bool
deriving DecidableEq, Repr

/-! ### Of a film entered at the pins `p` -/

/-- The pin vectors of a film that differ from the one before, the first of them from `p`. -/
def changes (p : Pins) : List Glimpse → List Pins
  | [] => []
  | g :: gs => if g.pins = p then changes p gs else g.pins :: changes g.pins gs

/-- The pin waveform, the entry vector at position 0 (R6 (a)). -/
def filmWaveform (p : Pins) (gs : List Glimpse) : List Pins := p :: changes p gs

/-- The positions at which samples are taken, where `n` is the position of the current vector `p`. -/
def positionsFrom (n : Nat) (p : Pins) : List Glimpse → List Nat
  | [] => []
  | g :: gs =>
    let later := positionsFrom (if g.pins = p then n else n + 1) g.pins gs
    if g.sampled then n :: later else later

/-- The positions in the pin waveform at which samples are taken, in order (R6 (b)). -/
def filmPositions (p : Pins) (gs : List Glimpse) : List Nat := positionsFrom 0 p gs

/-- The pin vectors in which samples are taken, in order. -/
def filmSamplePins (p : Pins) : List Glimpse → List Pins
  | [] => []
  | g :: gs => if g.sampled then p :: filmSamplePins g.pins gs else filmSamplePins g.pins gs

/-- What the chip takes, in order: the level on the data line at each fall of `we_n` while chip-enable is asserted (R54,
R125). At a fall with `ce_n = 1` the chip, "not being enabled, would not respond" (R134). -/
def filmCommitted (p : Pins) : List Glimpse → List (Option Bool)
  | [] => []
  | g :: gs =>
    if p.weN && !g.pins.weN && !g.pins.ceN then g.pins.drives :: filmCommitted g.pins gs
    else filmCommitted g.pins gs

/-! ### Of a trace entered at the pins `p` -/

/-- The film of a trace, one glimpse for each micro-operation. -/
def film : List Slot → Pins → List Glimpse
  | [], _ => []
  | x :: xs, p => ⟨x.op.onPins p, x.op.samples⟩ :: film xs (x.op.onPins p)

/-- The pin vectors of a trace, the entry vector first, one more after each micro-operation. -/
def pinHistory (xs : List Slot) (p : Pins) : List Pins := p :: (film xs p).map fun g => g.pins

/-- The pin waveform of a trace (R6 (a)): redundant writes do not appear in it (R137). -/
def waveform (xs : List Slot) (p : Pins) : List Pins := filmWaveform p (film xs p)

/-- The positions in the pin waveform of a trace at which its samples are taken (R6 (b)). -/
def samplePositions (xs : List Slot) (p : Pins) : List Nat := filmPositions p (film xs p)

/-- The pin vectors in which the samples of a trace are taken. -/
def samplePins (xs : List Slot) (p : Pins) : List Pins := filmSamplePins p (film xs p)

/-- What a trace commits to the chip (R54). -/
def committed (xs : List Slot) (p : Pins) : List (Option Bool) := filmCommitted p (film xs p)

end Sys2Proof.Machine
end

