-- ==== Sys2Proof/Machine/BitTransport.lean ====
section
/-!
DEFINITION. The bit-level transport (41_bit_transport.md): the meanings of the ten micro-operations, `WRBIT` and `RDBIT`.
None tests a precondition, writes a flag or can fail (R120, R134, R135, R138).
-/

namespace Sys2Proof.Machine

/-- `CE_LO`: `ce_n <- 0` (R121). -/
def execCeLo (s : State) : Host.Outcome State Fault Refusal := .next (performMicro .ceLo s)

/-- `CE_HI`: `ce_n <- 1` (R122). -/
def execCeHi (s : State) : Host.Outcome State Fault Refusal := .next (performMicro .ceHi s)

/-- `OE_LO`: `oe_n <- 0` (R123). -/
def execOeLo (s : State) : Host.Outcome State Fault Refusal := .next (performMicro .oeLo s)

/-- `OE_HI`: `oe_n <- 1` (R124). -/
def execOeHi (s : State) : Host.Outcome State Fault Refusal := .next (performMicro .oeHi s)

/-- `WE_LO`: `we_n <- 0`, the edge that commits the level of the data line (R125). -/
def execWeLo (s : State) : Host.Outcome State Fault Refusal := .next (performMicro .weLo s)

/-- `WE_HI`: `we_n <- 1` (R126). -/
def execWeHi (s : State) : Host.Outcome State Fault Refusal := .next (performMicro .weHi s)

/-- `DQ_IN`: `dq_dir <- 0`; `dq_out` keeps its value (R127). -/
def execDqIn (s : State) : Host.Outcome State Fault Refusal := .next (performMicro .dqIn s)

/-- `DQ_OUT`: `dq_dir <- 1`; the latched level stands on the line again (R128). -/
def execDqOut (s : State) : Host.Outcome State Fault Refusal := .next (performMicro .dqOut s)

/-- `DQ_DRV(b)`: `dq_out <- b`, whatever the direction (R129). -/
def execDqDrv (b : Bool) (s : State) : Host.Outcome State Fault Refusal := .next (performMicro (.dqDrv b) s)

/-- `DQ_SMP`: return one draw (R130, R131). -/
def execDqSmp (s : State) : Host.Outcome State Fault Refusal := .next (performMicro .dqSmp s)

/-- `WRBIT(b)`: four micro-operations (R132). -/
def execWrbit (b : Bool) (s : State) : Host.Outcome State Fault Refusal := .next (performAll (wrbitTrace b) s)

/-- `RDBIT()`: three micro-operations, returning the sampled bit (R133). -/
def execRdbit (s : State) : Host.Outcome State Fault Refusal := .next (performAll (rdbitTrace .none) s)

end Sys2Proof.Machine
end

