-- ==== Sys2Proof/Machine/ByteTransport.lean ====
section
/-!
DEFINITION. The byte transport (42_byte_transport.md): `SENDB` and `RECVB`.
-/

namespace Sys2Proof.Machine

/-- `SENDB(v)`: 35 micro-operations, no result (R150). -/
def execSendb (v : Byte) (s : State) : Host.Outcome State Fault Refusal := .next (performAll (sendbTrace v) s)

/-- `RECVB()`: 27 micro-operations; the byte is assembled in `SHR` and returned (R155). -/
def execRecvb (s : State) : Host.Outcome State Fault Refusal := .next (performAll (recvbTrace .toRet) s)

end Sys2Proof.Machine
end

