-- ==== Sys2Proof/Machine/SessionDriver.lean ====
section
/-!
DEFINITION. The session driver's commands (45_session_driver.md): `NOP`, `RDCYC`, `WRCYC`. A command's own step is its
acceptance (R213); the run steps that follow perform the cycle (R212, in Machine/Sequencer.lean).
-/

namespace Sys2Proof.Machine

/-- `NOP`: "No state changes, no pin moves" (R216). -/
def execNop (s : State) : Host.Outcome State Fault Refusal := .next s

/-- `RDCYC` (R213, R217): accepted when `busy = 0`; while `busy = 1` "every command code behaves as NOP" (R216,
R214). -/
def execRdcyc (s : State) : Host.Outcome State Fault Refusal :=
  if s.busy then .next s else .next (acceptCycle false s)

/-- `WRCYC` (R213, R220): accepted when `busy = 0`, with `IMG <- REGENC(ct)` in the accepting step, the one
place where the block evaluates `REGENC` (R185, R221). -/
def execWrcyc (ct : CalendarTime) (s : State) : Host.Outcome State Fault Refusal :=
  if s.busy then .next s
  else .next (acceptCycle true { s with img := regEnc ct, ret := { s.ret with image := regEnc ct } })

end Sys2Proof.Machine
end

