-- ==== Sys2Proof/Machine/WakeSequence.lean ====
section
/-!
DEFINITION. The wake sequence (43_wake_sequence.md): `WAKE`.
-/

namespace Sys2Proof.Machine

/-- `WAKE()`: the prime frame, whose bit is discarded, then the eight bytes of the wake code (R171). -/
def execWake (s : State) : Host.Outcome State Fault Refusal := .next (performAll wakeTrace s)

end Sys2Proof.Machine
end

