-- ==== Sys2Proof/Machine/Dispatch.lean ====
section
/-!
DEFINITION. exec: one arm per operation of the table of R80, each one call of its meaning.
-/

namespace Sys2Proof.Machine

def exec (i : Instr) (s : State) : Host.Outcome State Fault Refusal :=
  match i with
  | .nop => Sys2Proof.Machine.execNop s
  | .rdcyc => Sys2Proof.Machine.execRdcyc s
  | .wrcyc ct => Sys2Proof.Machine.execWrcyc ct s
  | .ceLo => Sys2Proof.Machine.execCeLo s
  | .ceHi => Sys2Proof.Machine.execCeHi s
  | .oeLo => Sys2Proof.Machine.execOeLo s
  | .oeHi => Sys2Proof.Machine.execOeHi s
  | .weLo => Sys2Proof.Machine.execWeLo s
  | .weHi => Sys2Proof.Machine.execWeHi s
  | .dqIn => Sys2Proof.Machine.execDqIn s
  | .dqOut => Sys2Proof.Machine.execDqOut s
  | .dqDrv b => Sys2Proof.Machine.execDqDrv b s
  | .dqSmp => Sys2Proof.Machine.execDqSmp s
  | .wrbit b => Sys2Proof.Machine.execWrbit b s
  | .rdbit => Sys2Proof.Machine.execRdbit s
  | .sendb v => Sys2Proof.Machine.execSendb v s
  | .recvb => Sys2Proof.Machine.execRecvb s
  | .wake => Sys2Proof.Machine.execWake s
  | .bcdenc d => Sys2Proof.Machine.execBcdenc d s
  | .bcddec b => Sys2Proof.Machine.execBcddec b s
  | .digpair b => Sys2Proof.Machine.execDigpair b s
  | .regenc ct => Sys2Proof.Machine.execRegenc ct s
  | .regdec img => Sys2Proof.Machine.execRegdec img s

end Sys2Proof.Machine
end

