-- ==== Sys2Proof/Machine/Sequencer.lean ====
section
/-!
DEFINITION. One step of the block (45_session_driver.md R211 to R214): reset, idle step or run step, in this order of
precedence (R248), and the evaluation of the combinational codecs on the levels of the step (R100, R185).
-/

namespace Sys2Proof.Machine

/-- Go on with `f` after a next state; a fault or a refusal stays. -/
def andThen (o : Host.Outcome State Fault Refusal) (f : State → Host.Outcome State Fault Refusal) :
    Host.Outcome State Fault Refusal :=
  match o with
  | .next s => f s
  | .fault r => .fault r
  | .refused r => .refused r

/-- The command that the codes on `cmd` name (R78): `00` NOP, `01` RDCYC, `10` WRCYC with the CalendarTime on
`ct_in`, and the reserved `11`, which "executes as NOP" (R81). -/
def commandOf (p : InputFrame) : Instr :=
  match p.cmd.toNat with
  | 1 => .rdcyc
  | 2 => .wrcyc (CalendarTime.ofPort p.ctIn)
  | _ => .nop

/-- The trace entry that a run step performs: index `n` of the current cycle's trace when `SEQ = RUN(n)` (R16,
R212). There is none when `SEQ` is `IDLE` or past the end. -/
def State.slot (s : State) : Option Slot :=
  match s.seq with
  | .idle => none
  | .run n => s.trace[n]?

/-- The operation the block performs in this step, reset aside: the host's command when `busy = 0`, the
sequencer's micro-operation when `busy = 1` (R211). -/
def State.fetch (s : State) : Option Instr :=
  if s.busy then s.slot.map (fun x => x.op.instr) else some (commandOf s.ports)

/-- The position that `SEQ = RUN(n)` holds; `IDLE` counts as 0 and is met in no run step. -/
def Seq.index : Seq → Nat
  | .idle => 0
  | .run n => n

/-- An idle step: the block looks at `cmd` (R213). -/
def idleStep (s : State) : Host.Outcome State Fault Refusal := exec (commandOf s.ports) s

/-- A run step (R212): perform the micro-operation at `SEQ`, deliver what it completes to `SHR` or `IMG`, advance
`SEQ`. `cmd`, `ct_in` and the codec ports have no influence. -/
def runStep (s : State) : Host.Outcome State Fault Refusal :=
  match s.slot with
  | none => .fault (.noMicroOp s.kind s.seq)
  | some x =>
    andThen (exec x.op.instr s) fun t => .next (advance s.seq.index (x.sink.deliver t))

/-- Which of the three happens, "chosen by the state alone" (R211); reset beats everything, a running cycle beats
a command (R248). -/
def act (s : State) : Host.Outcome State Fault Refusal :=
  if s.ports.rst then .next (resetBlock s)
  else if s.busy then runStep s
  else idleStep s

/-- The combinational functions on the levels of this step: `BCDENC` on `enc_d`, `BCDDEC` on `dec_b`, `DIGPAIR`
on `dp_b` (R100), and `REGDEC`, "wired permanently between IMG and the port ct_out" (R185). -/
def evalCodecs (s : State) : Host.Outcome State Fault Refusal :=
  andThen (exec (.bcdenc s.ports.encD) s) fun s =>
  andThen (exec (.bcddec s.ports.decB) s) fun s =>
  andThen (exec (.digpair s.ports.dpB) s) fun s =>
  exec (.regdec s.img) s

/-- One step (R211): the host's levels come to stand on the ports, the block acts, the codec outputs settle. -/
def stepOnce (s : State) : Host.Outcome State Fault Refusal := andThen (act (takeInputs s)) evalCodecs

end Sys2Proof.Machine
end

