-- ==== Sys2Proof/Machine/Place.lean ====
section
/-!
DEFINITION. Where each operation of the table of R80 comes to run, and the state that makes the very next step run it
(or, for a procedure, begin it). The block fetches no instructions (R40, R61): a command runs in an idle step that
sees its code on `cmd`, a micro-operation or a procedure runs at its place in a cycle, a codec function runs when its
operand stands on its port. Log entry 7.
-/

namespace Sys2Proof.Machine

/-- The levels of a step in which the host asks for nothing. -/
def quietFrame : InputFrame := { rst := false, cmd := 0, ctIn := 0, encD := 0, decB := 0, dpB := 0 }

/-- The next step is an idle step that sees the levels `p`. -/
def State.placeIdle (s : State) (p : InputFrame) : State :=
  { s with busy := false, seq := .idle, inputs := p :: s.inputs }

/-- The next step is the run step at index `n` of a cycle: the pins are as the first `n` micro-operations of the
cycle leave them from the rest state. -/
def State.placeRun (s : State) (k : Bool) (img : RegisterImage) (n : Nat) : State :=
  { s with
    busy := true
    valid := false
    kind := k
    img := img
    seq := .run n
    pins := pinsAfter ((if k then writeTrace img else readTrace).take n) Pins.reset
    inputs := quietFrame :: s.inputs }

/-- The image whose first byte is `v`: the first byte a write burst sends. -/
def firstByte (v : Byte) : RegisterImage := { zeroImage with b0 := v }

/-- Make the next step run `i`. -/
def State.place (s : State) : Instr → State
  -- commands: their code on `cmd` in an idle step (R213)
  | .nop => s.placeIdle quietFrame
  | .rdcyc => s.placeIdle { quietFrame with cmd := 1 }
  | .wrcyc ct => s.placeIdle { quietFrame with cmd := 2, ctIn := ct.toPort }
  -- micro-operations: an index of a cycle where they stand (R16)
  | .ceLo => s.placeRun false s.img 0
  | .ceHi => s.placeRun false s.img 5
  | .oeLo => s.placeRun false s.img 2
  | .oeHi => s.placeRun false s.img 4
  | .weLo => s.placeRun false s.img 10
  | .weHi => s.placeRun false s.img 11
  | .dqIn => s.placeRun false s.img 1
  | .dqOut => s.placeRun false s.img 7
  | .dqDrv b => s.placeRun true (firstByte (bitByte b)) 289
  | .dqSmp => s.placeRun false s.img 3
  -- procedures: an index of a cycle where they begin (R16)
  | .wrbit b => s.placeRun true (firstByte (bitByte b)) 288
  | .rdbit => s.placeRun false s.img 2
  | .sendb v => s.placeRun true (firstByte v) 286
  | .recvb => s.placeRun false s.img 286
  | .wake => s.placeRun false s.img 0
  -- codec functions: their operand on their port (R100), `REGENC` in the accepting step of a `WRCYC`, `REGDEC` on
  -- the image (R185)
  | .bcdenc d => s.placeIdle { quietFrame with encD := d }
  | .bcddec b => s.placeIdle { quietFrame with decB := b }
  | .digpair b => s.placeIdle { quietFrame with dpB := b }
  | .regenc ct => s.placeIdle { quietFrame with cmd := 2, ctIn := ct.toPort }
  | .regdec img => { s with valid := true, img := img }.placeIdle quietFrame

end Sys2Proof.Machine
end

