-- ==== Sys2Proof/Machine/Step.lean ====
section
/-!
DEFINITION. The step of the machine, and the placing of a table word so that the next step runs it.
-/

namespace Sys2Proof.Machine

/-- One step of the block (R5, R211). -/
def step (s : State) : Host.Outcome State Fault Refusal := stepOnce s

/-- `s` with the operation of a table word placed where the next step runs it (log entry 7); `s` itself where the
decoder refuses the word. -/
def State.withFetchWord (s : State) (nbits w : Nat) : State :=
  match decodeTableWord nbits w with
  | some i => s.place i
  | none => s

end Sys2Proof.Machine
end

