-- ==== Sys2Proof/Machine/Watch.lean ====
section
/-!
DEFINITION. What an outside observer sees of a run of the machine, step by step (00_scope.md R6): the pins and the samples,
whatever the steps are (idle, reset, one cycle or several), the outputs whenever `busy = 0`, and the ports of the
combinational codecs.
-/

namespace Sys2Proof.Machine

/-- The outputs an observer relies on whenever `busy = 0` (R6 (c)); the two data ports show no value to rely on while
`valid = 0` (R15). -/
structure Outputs where
  valid : Bool
  kind  : Bool
  image : Option (BitVec 64)
  ct    : Option (BitVec 64)
deriving DecidableEq, Repr

/-- The outputs of the three combinational codec ports (R6 (d), R20). -/
structure CodecOutputs where
  encB : Byte
  decD : Byte
  dpHi : Byte
  dpLo : Byte
deriving DecidableEq, Repr

/-- What an observer sees of one step. -/
structure Sight where
  glimpse : Glimpse
  outputs : Option Outputs
  codecs  : CodecOutputs
deriving DecidableEq, Repr

/-- The outputs of a state with `busy = 0`; none while a cycle runs (R6 (c)). -/
def State.outputs (s : State) : Option Outputs :=
  if s.busy then none
  else some {
    valid := s.valid
    kind := s.kind
    image := if s.valid then some s.imgOut else none
    ct := if s.valid then some s.ctOut else none }

/-- The codec ports of a state (R6 (d)). -/
def State.codecOutputs (s : State) : CodecOutputs :=
  { encB := s.encB, decD := s.decD, dpHi := s.dpHi, dpLo := s.dpLo }

/-- What an observer sees of the step from `s` to `t`: the data line was sampled in it when it took a draw (R130, R131,
log entry 3). -/
def sight (s t : State) : Sight :=
  { glimpse := { pins := t.pins, sampled := t.drawn != s.drawn }
    outputs := t.outputs
    codecs := t.codecOutputs }

/-- What an observer sees of `k` steps from `s`, up to the first fault or refusal. -/
def observe : Nat → State → List Sight
  | 0, _ => []
  | k + 1, s =>
    match step s with
    | .next t => sight s t :: observe k t
    | .fault _ => []
    | .refused _ => []

/-- The film of `k` steps from `s`, entered at `s.pins`. -/
def runFilm (k : Nat) (s : State) : List Glimpse := (observe k s).map fun x => x.glimpse

/-- The pin waveform of `k` steps (R6 (a)). -/
def runWaveform (k : Nat) (s : State) : List Pins := filmWaveform s.pins (runFilm k s)

/-- The positions in the pin waveform of `k` steps at which their samples are taken (R6 (b)). -/
def runPositions (k : Nat) (s : State) : List Nat := filmPositions s.pins (runFilm k s)

/-- What `k` steps commit to the chip (R54). -/
def runCommitted (k : Nat) (s : State) : List (Option Bool) := filmCommitted s.pins (runFilm k s)

end Sys2Proof.Machine
end

