-- ==== Sys2Proof/Safety.lean ====
section
/-!
DEFINITION. The terms claims are stated in: the pin invariants of 10_state.md R24, the invariant of the machine, the
block's own state apart from the model's fields, and runs of several steps.
-/

namespace Sys2Proof.Machine

/-- A pin vector with the three control lines deasserted: the rest state (R13, R174). -/
def restPins (d q : Bool) : Pins := { ceN := true, oeN := true, weN := true, dqDir := d, dqOut := q }

/-- The three control lines are deasserted (R13, R24 (d)). -/
def Pins.AtRest (p : Pins) : Prop := p.ceN = true ∧ p.oeN = true ∧ p.weN = true

/-- R24 (a), (b), (c): output-enable is low only with the chip enabled, write-enable high and the line an input;
write-enable is low only with the chip enabled, output-enable high and the line an output; never both low. -/
def Pins.Safe (p : Pins) : Prop :=
  (p.oeN = false → p.ceN = false ∧ p.weN = true ∧ p.dqDir = false) ∧
  (p.weN = false → p.ceN = false ∧ p.oeN = true ∧ p.dqDir = true) ∧
  ¬ (p.oeN = false ∧ p.weN = false)

/-- The invariant of the machine. Idle: `busy = 0` and the control lines rest (R18, R24 (d)). Running at index `n`:
`busy = 1`, `valid = 0`, `n` is an index of the cycle (R16, R18), and the pins are as the first `n`
micro-operations of the cycle leave them from a rest state. -/
def State.Inv (s : State) : Prop :=
  match s.seq with
  | .idle => s.busy = false ∧ s.pins.AtRest
  | .run n =>
    s.busy = true ∧ s.valid = false ∧ n ≤ lastIndex s.kind ∧
      ∃ d q, s.pins = pinsAfter (s.trace.take n) (restPins d q)

/-- The seven elements of R10 are the same in both states. -/
def SameBlock (s t : State) : Prop :=
  t.pins = s.pins ∧ t.img = s.img ∧ t.shr = s.shr ∧ t.seq = s.seq ∧
  t.busy = s.busy ∧ t.valid = s.valid ∧ t.kind = s.kind

/-- The elements that steer the sequencer and show on the output pins and flags: all of R10 but `IMG` and `SHR`. -/
def SameControl (s t : State) : Prop :=
  t.pins = s.pins ∧ t.seq = s.seq ∧ t.busy = s.busy ∧ t.valid = s.valid ∧ t.kind = s.kind

/-- `k` steps of the machine, stopping at the first fault or refusal. -/
def runSteps : Nat → State → Host.Outcome State Fault Refusal
  | 0, s => .next s
  | k + 1, s => andThen (step s) (runSteps k)

/-- The traces of the five procedures of R80, when they are performed on their own. -/
def procedureTrace : Instr → Option (List Slot)
  | .wrbit b => some (wrbitTrace b)
  | .rdbit => some (rdbitTrace .none)
  | .sendb v => some (sendbTrace v)
  | .recvb => some (recvbTrace .toRet)
  | .wake => some wakeTrace
  | .nop => none
  | .rdcyc => none
  | .wrcyc _ => none
  | .ceLo => none
  | .ceHi => none
  | .oeLo => none
  | .oeHi => none
  | .weLo => none
  | .weHi => none
  | .dqIn => none
  | .dqOut => none
  | .dqDrv _ => none
  | .dqSmp => none
  | .bcdenc _ => none
  | .bcddec _ => none
  | .digpair _ => none
  | .regenc _ => none
  | .regdec _ => none

/-- How many entries of a trace perform the micro-operation `u`. -/
def countOp (u : MicroOp) (xs : List Slot) : Nat := xs.countP fun x => x.op = u

/-- How many entries of a trace drive a bit, either one. -/
def countDrv (xs : List Slot) : Nat := countOp (.dqDrv false) xs + countOp (.dqDrv true) xs

end Sys2Proof.Machine
end

