-- ==== Sys2Proof/WellFormed.lean ====
section
/-!
DEFINITION. Well-formed operations and data. The operands of an operation have the spec's widths by their type,
and every value of every operand is admitted ("every function of the block is total over all 256 values of every
byte", R84), so no operation is ill-formed. The checks on DATA below are the spec's documentation of what a
healthy chip returns and a careful host writes; no operation applies them (R11, R84, R196, R203).
-/

namespace Sys2Proof

/-- Every operation is well-formed, whatever its operands (R84, R101, R105, R150, R196, R203). -/
def Instr.wf : Instr → Bool
  | .nop => true
  | .rdcyc => true
  | .wrcyc _ => true
  | .ceLo => true
  | .ceHi => true
  | .oeLo => true
  | .oeHi => true
  | .weLo => true
  | .weHi => true
  | .dqIn => true
  | .dqOut => true
  | .dqDrv _ => true
  | .dqSmp => true
  | .wrbit _ => true
  | .rdbit => true
  | .sendb _ => true
  | .recvb => true
  | .wake => true
  | .bcdenc _ => true
  | .bcddec _ => true
  | .digpair _ => true
  | .regenc _ => true
  | .regdec _ => true

/-- A valid packed BCD byte: both nibbles in 0..9 (R72). -/
def validBcd (b : Byte) : Bool :=
  b.toNat / 16 ≤ 9 && b.toNat % 16 ≤ 9

/-- The documented ranges of a CalendarTime (R11). Documentation only. -/
def CalendarTime.documented (ct : CalendarTime) : Bool :=
  ct.subsec.toNat ≤ 99 && ct.second.toNat ≤ 59 && ct.minute.toNat ≤ 59 && ct.hour.toNat ≤ 23 &&
  (1 ≤ ct.dow.toNat && ct.dow.toNat ≤ 7) && (1 ≤ ct.date.toNat && ct.date.toNat ≤ 31) &&
  (1 ≤ ct.month.toNat && ct.month.toNat ≤ 12) && ct.year.toNat ≤ 99

/-- Every byte of the image is valid packed BCD (the "BCD-digit invariant" of R56). Documentation only. -/
def RegisterImage.validBcd (img : RegisterImage) : Bool :=
  Sys2Proof.validBcd img.b0 && Sys2Proof.validBcd img.b1 && Sys2Proof.validBcd img.b2 &&
  Sys2Proof.validBcd img.b3 && Sys2Proof.validBcd img.b4 && Sys2Proof.validBcd img.b5 &&
  Sys2Proof.validBcd img.b6 && Sys2Proof.validBcd img.b7

end Sys2Proof
end

