-- ==== Sys2Proof/Certificates/Slice0/Obligations.lean ====
section
/-!
DEFINITION. The statements for the provers. Each docstring names the rules of spec/ it formalises.
-/

open Sys2Proof Sys2Proof.Machine

/-! ## Encoding -/

/-- Every operation, with every value of its operands, decodes from its own bytes, and the bytes after it are left
(R80; the operand bytes are the model's layout, log entry 6). -/
def Obligations.DecodeAfterEncode : Prop :=
  ∀ (i : Instr) (rest : List Byte), i.wf = true → decode (encode i ++ rest) = .ok (i, rest)

/-- Whatever the decoder accepts is the encoding of what it answers: each byte string has one meaning and no bit is
ignored (R80, R82; log entry 6). -/
def Obligations.EncodeAfterDecode : Prop :=
  ∀ (bs rest : List Byte) (i : Instr), decode bs = .ok (i, rest) → bs = encode i ++ rest ∧ i.wf = true

/-- R82: an opid that the table of R80 does not list is answered "invalid", the codes `1011`..`1111` name no
micro-operation, and the sequencer emits none of them. -/
def Obligations.UnlistedCodesAreInvalid : Prop :=
  (∀ (op : Byte) (rest : List Byte),
    op.toNat ∉ [0x00, 0x01, 0x02, 0x40, 0x41, 0x42, 0x43, 0x44, 0x45, 0x46, 0x47, 0x48, 0x49, 0x4A,
      0x80, 0x81, 0x82, 0x83, 0x84, 0xC0, 0xC1, 0xC2, 0xC3, 0xC4] →
    decode (op :: rest) = .error (.invalidOpid op)) ∧
  (∀ u : BitVec 4, 0b1011 ≤ u.toNat → MicroOp.ofCode u = none) ∧
  (∀ (s : State) (x : Slot), s.slot = some x → x.op.code.toNat < 0b1011)

/-- Words of R80's table, written out, decode to the operation they stand for: one of each class and `DQ_DRV` with
both bits. -/
def Obligations.TableWordsDecode : Prop :=
  decode [0b00000001] = .ok (.rdcyc, []) ∧
  decode [0b00000010, 0x63, 0x00, 0x05, 0x09, 0x03, 0x1F, 0x0C, 0x19] =
    .ok (.wrcyc ⟨99, 0, 5, 9, 3, 31, 12, 25⟩, []) ∧
  decode [0b01000100] = .ok (.weLo, []) ∧
  decode [0b01001000] = .ok (.dqDrv false, []) ∧
  decode [0b01001001] = .ok (.dqDrv true, []) ∧
  decode [0b10000010, 0xC5] = .ok (.sendb 0xC5, []) ∧
  decode [0b10000100] = .ok (.wake, []) ∧
  decode [0b11000000, 27] = .ok (.bcdenc 27, []) ∧
  decode [0b11000100, 0x00, 0x27, 0x31, 0x15, 0x07, 0x19, 0x02, 0x20] =
    .ok (.regdec ⟨0x00, 0x27, 0x31, 0x15, 0x07, 0x19, 0x02, 0x20⟩, [])

/-- R79: the codes `0000`..`1001` write the pin field that `u[3:1]` selects, in the order `ce_n`, `oe_n`, `we_n`,
`dq_dir`, `dq_out`, with the value `u[0]`; `1010` is the sample and writes no pin; every code up to `1010` names a
micro-operation; as an opid the code stands under class `01` (R80). -/
def Obligations.MicroOperationCodes : Prop :=
  (∀ u : BitVec 4, u.toNat ≤ 0b1010 → ∃ m, MicroOp.ofCode u = some m ∧ m.code = u) ∧
  (∀ (m : MicroOp) (p : Pins), m.code.toNat ≤ 0b1001 →
    let fields := fun q : Pins => [q.ceN, q.oeN, q.weN, q.dqDir, q.dqOut]
    fields (m.onPins p) = (fields p).set (m.code.toNat / 2) (m.code.toNat % 2 == 1) ∧ m.samples = false) ∧
  (∀ (m : MicroOp) (p : Pins), m.code = 0b1010 → m.samples = true ∧ m.onPins p = p) ∧
  (∀ m : MicroOp, (opid m.instr).toNat = 0b01000000 + m.code.toNat)

/-- R11, R20, R45: the layouts of the 64-bit ports. `ct_in` and `ct_out` carry the eight fields in the order of the
register image, and bit `n` of `img_out` is `IMG[n / 8][n % 8]`. -/
def Obligations.PortLayouts : Prop :=
  (∀ ct : CalendarTime, CalendarTime.ofPort ct.toPort = ct) ∧
  (∀ w : BitVec 64, (CalendarTime.ofPort w).toPort = w) ∧
  (∀ (ct : CalendarTime) (k : Fin 8),
    ct.toPort.extractLsb' (8 * k.val) 8 =
      [ct.subsec, ct.second, ct.minute, ct.hour, ct.dow, ct.date, ct.month, ct.year][k]) ∧
  (∀ (s : State) (k i : Fin 8), s.imgOut.getLsbD (8 * k.val + i.val) = bitOf (s.img.get k) i)

/-! ## The step -/

/-- R211, R212, R213: a step with `rst` deasserted runs, through exec, the operation it fetches: the host's command
when `busy = 0`; the micro-operation at `SEQ` when `busy = 1`, whose value is then delivered and after which `SEQ`
advances; and every step ends with the evaluation of the combinational codecs (R100, R185). -/
def Obligations.StepRunsFetchedOperation : Prop :=
  ∀ s : State, s.nextFrame.rst = false →
    (s.busy = false →
      (takeInputs s).fetch = some (commandOf s.nextFrame) ∧
      step s = andThen (exec (commandOf s.nextFrame) (takeInputs s)) evalCodecs) ∧
    (∀ (n : Nat) (x : Slot), s.busy = true → s.seq = .run n → s.trace[n]? = some x →
      (takeInputs s).fetch = some x.op.instr ∧
      step s = andThen (exec x.op.instr (takeInputs s)) fun t => evalCodecs (advance n (x.sink.deliver t)))

/-- R78, R81: the command an idle step runs is the one the decoder reads from the opid that has the code on `cmd` in
its bits 1..0 and class `00`, with the bytes of `ct_in` as the operand of `WRCYC`; the reserved code `11` runs as
`NOP`. -/
def Obligations.CommandCodesDecode : Prop :=
  ∀ (p : InputFrame) (rest : List Byte),
    (p.cmd = 0b00 → decode (0x00 :: rest) = .ok (commandOf p, rest)) ∧
    (p.cmd = 0b01 → decode (0x01 :: rest) = .ok (commandOf p, rest)) ∧
    (p.cmd = 0b10 → decode (0x02 :: ((List.range 8).map fun k => p.ctIn.extractLsb' (8 * k) 8) ++ rest) =
      .ok (commandOf p, rest)) ∧
    (p.cmd = 0b11 → commandOf p = .nop)

/-- Every row of the table of R80, with every operand, comes to run in the very next step of the machine placed for it
(log entry 7): a command or a micro-operation is what that step fetches; of a procedure that step fetches the first
micro-operation, and the micro-operations from there on are the procedure's; the value of a codec function, for every
value of its operand, is what that step returns. -/
def Obligations.PlacedRowsRunNext : Prop :=
  (∀ w ∈ [0x00, 0x01, 0x02, 0x40, 0x41, 0x42, 0x43, 0x44, 0x45, 0x46, 0x47, 0x48, 0x49, 0x4A, 0x80, 0x81, 0x82, 0x83,
      0x84, 0xC0, 0xC1, 0xC2, 0xC3, 0xC4], (decodeTableWord 8 w).isSome = true) ∧
  (∀ (s : State) (nbits w : Nat) (i : Instr), decodeTableWord nbits w = some i → s.withFetchWord nbits w = s.place i) ∧
  ∀ s : State,
    (∀ i : Instr, ∃ t, step (s.place i) = .next t) ∧
    (∀ (ct : CalendarTime), ∀ i ∈ [Instr.nop, .rdcyc, .wrcyc ct], (takeInputs (s.place i)).fetch = some i) ∧
    (∀ m : MicroOp, (takeInputs (s.place m.instr)).fetch = some m.instr) ∧
    (∀ (i : Instr) (xs : List Slot), procedureTrace i = some xs →
      (takeInputs (s.place i)).fetch = xs.head?.map (fun x => x.op.instr) ∧
      ∃ n, (s.place i).seq = .run n ∧
        (((s.place i).trace.drop n).take xs.length).map (fun x => x.op) = xs.map (fun x => x.op)) ∧
    (∀ d : Byte, ∃ t, step (s.place (.bcdenc d)) = .next t ∧ t.ret.enc = bcdEnc d) ∧
    (∀ b : Byte, ∃ t, step (s.place (.bcddec b)) = .next t ∧ t.ret.dec = bcdDec b) ∧
    (∀ b : Byte, ∃ t, step (s.place (.digpair b)) = .next t ∧ t.ret.digHi = digHi b ∧ t.ret.digLo = digLo b) ∧
    (∀ ct : CalendarTime, ∃ t, step (s.place (.regenc ct)) = .next t ∧ t.ret.image = regEnc ct ∧ t.img = regEnc ct) ∧
    (∀ img : RegisterImage, ∃ t, step (s.place (.regdec img)) = .next t ∧ t.ret.calendar = regDec img ∧ t.img = img)

/-- R213: the idle step. With `cmd` `00` or `11` nothing changes; `01` accepts a read cycle, `10` a write cycle with
`IMG <- REGENC(ct_in)`. The accepting step performs no micro-operation (no pin moves, no sample is taken); the next
one stands at index 0 and is `CE_LO`. `ct_in` is read in the step that accepts a write cycle and at no other time: in any
other step (a run step, a reset step, an idle step with another `cmd`) two hosts that differ only there get the same
block. -/
def Obligations.IdleStepAcceptance : Prop :=
  (∀ (s t : State) (p : InputFrame) (w : BitVec 64) (rest : List InputFrame),
    (s.busy = true ∨ p.rst = true ∨ p.cmd ≠ 0b10) → step { s with inputs := p :: rest } = .next t →
    ∃ u, step { s with inputs := { p with ctIn := w } :: rest } = .next u ∧ SameBlock t u) ∧
  ∀ s : State, s.busy = false → s.nextFrame.rst = false →
    ∃ t, step s = .next t ∧ t.pins = s.pins ∧ t.shr = s.shr ∧ t.answers = s.answers ∧ t.drawn = s.drawn ∧
      (s.nextFrame.cmd = 0b00 ∨ s.nextFrame.cmd = 0b11 → SameBlock s t) ∧
      (s.nextFrame.cmd = 0b01 →
        t.kind = false ∧ t.valid = false ∧ t.busy = true ∧ t.seq = .run 0 ∧ t.img = s.img ∧
        t.trace[0]? = some (.plain .ceLo)) ∧
      (s.nextFrame.cmd = 0b10 →
        t.kind = true ∧ t.valid = false ∧ t.busy = true ∧ t.seq = .run 0 ∧
        t.img = regEnc (CalendarTime.ofPort s.nextFrame.ctIn) ∧ t.trace[0]? = some (.plain .ceLo))

/-- R212: the run step, from every state that satisfies the machine's invariant. It performs on the pins the
micro-operation at index `n`; the `i`-th sample of the `k`-th `RECVB` of a read cycle (index 289 + 27k + 3i) goes to
`SHR[i]`; the `CE_HI` that ends it (index 312 + 27k) writes `SHR` to `IMG[k]`; nothing else writes `SHR` or `IMG`;
after index 501 (read) or 565 (write) the cycle is complete. -/
def Obligations.RunStepEffect : Prop :=
  ∀ (s : State) (n : Nat), s.Inv → s.seq = .run n → s.nextFrame.rst = false →
    ∃ x t, s.trace[n]? = some x ∧ step s = .next t ∧
      t.pins = x.op.onPins s.pins ∧ t.kind = s.kind ∧
      t.drawn = s.drawn + (if x.op.samples then 1 else 0) ∧
      (∀ k i : Fin 8, s.kind = false → n = 289 + 27 * k.val + 3 * i.val →
        x.op.samples = true ∧ ∀ j, bitOf t.shr j = if j = i then s.draw else bitOf s.shr j) ∧
      ((s.kind = true ∨ ∀ k i : Fin 8, n ≠ 289 + 27 * k.val + 3 * i.val) → t.shr = s.shr) ∧
      (∀ k : Fin 8, s.kind = false → n = 312 + 27 * k.val → t.img = s.img.set k s.shr) ∧
      ((s.kind = true ∨ ∀ k : Fin 8, n ≠ 312 + 27 * k.val) → t.img = s.img) ∧
      (n = (if s.kind then 565 else 501) → t.seq = .idle ∧ t.busy = false ∧ t.valid = true) ∧
      (n ≠ (if s.kind then 565 else 501) → t.seq = .run (n + 1) ∧ t.busy = true ∧ t.valid = false)

/-- R270, R272: a step with `rst` asserted, whatever the state and whatever `cmd`: the pins rest, no cycle runs, the
flags are 0; no micro-operation is performed and no sample is taken. Nothing is said of `IMG` and `SHR`. -/
def Obligations.ResetStepDominates : Prop :=
  ∀ s : State, s.nextFrame.rst = true →
    ∃ t, step s = .next t ∧
      t.pins = { ceN := true, oeN := true, weN := true, dqDir := false, dqOut := false } ∧
      t.seq = .idle ∧ t.busy = false ∧ t.valid = false ∧ t.kind = false ∧
      t.answers = s.answers ∧ t.drawn = s.drawn

/-- R26: what reset leaves. Nothing is said of `IMG` and `SHR`, which R26 leaves unspecified. -/
def Obligations.ResetLeavesRestState : Prop :=
  State.reset.pins.ceN = true ∧ State.reset.pins.oeN = true ∧ State.reset.pins.weN = true ∧
  State.reset.pins.dqDir = false ∧ State.reset.pins.dqOut = false ∧ State.reset.seq = .idle ∧
  State.reset.busy = false ∧ State.reset.valid = false ∧ State.reset.kind = false ∧
  ∀ k : Fin 8, wakeCode k = ([0xC5, 0x3A, 0xA3, 0x5C, 0xC5, 0x3A, 0xA3, 0x5C] : List Byte)[k]

/-- R100, R20, R185: in every step, whatever the block does in it, the codec functions are evaluated on the levels
of that step: `enc_b`, `dec_d`, `dp_hi`, `dp_lo` show them, and `ct_out` shows `REGDEC` of the image. -/
def Obligations.CodecPortsInEveryStep : Prop :=
  ∀ s t : State, step s = .next t →
    t.ports = s.nextFrame ∧
    t.ret.enc = bcdEnc s.nextFrame.encD ∧ t.ret.enc = t.encB ∧
    t.ret.dec = bcdDec s.nextFrame.decB ∧ t.ret.dec = t.decD ∧
    t.ret.digHi = digHi s.nextFrame.dpB ∧ t.ret.digHi = t.dpHi ∧
    t.ret.digLo = digLo s.nextFrame.dpB ∧ t.ret.digLo = t.dpLo ∧
    t.ret.calendar = regDec t.img ∧ t.ret.calendar.toPort = t.ctOut

/-! ## Micro-operations -/

/-- R121 to R129: what each pin write does, in every state and whatever the field held before: the next state is the
old one with that one pin field written, so no other pin, no register and no flag changes; and their codes. After
`DQ_IN` the block drives no level onto the data line. -/
def Obligations.PinWrites : Prop :=
  ([MicroOp.ceLo, .ceHi, .oeLo, .oeHi, .weLo, .weHi, .dqIn, .dqOut, .dqDrv false, .dqDrv true].map fun m =>
      (m.code, opid m.instr)) =
    [(0b0000, 0x40), (0b0001, 0x41), (0b0010, 0x42), (0b0011, 0x43), (0b0100, 0x44), (0b0101, 0x45),
      (0b0110, 0x46), (0b0111, 0x47), (0b1000, 0x48), (0b1001, 0x49)] ∧
  (∀ p : Pins, (MicroOp.dqIn.onPins p).drives = none) ∧
  ∀ s : State,
    exec .ceLo s = .next { s with pins := { s.pins with ceN := false } } ∧
    exec .ceHi s = .next { s with pins := { s.pins with ceN := true } } ∧
    exec .oeLo s = .next { s with pins := { s.pins with oeN := false } } ∧
    exec .oeHi s = .next { s with pins := { s.pins with oeN := true } } ∧
    exec .weLo s = .next { s with pins := { s.pins with weN := false } } ∧
    exec .weHi s = .next { s with pins := { s.pins with weN := true } } ∧
    exec .dqIn s = .next { s with pins := { s.pins with dqDir := false } } ∧
    exec .dqOut s = .next { s with pins := { s.pins with dqDir := true } } ∧
    ∀ b, exec (.dqDrv b) s = .next { s with pins := { s.pins with dqOut := b } }

/-- R130, R131: `DQ_SMP` returns the environment's next bit, listed or free, and writes no pin and no flag. The free
draw is `Config.freeDraw`, of which nothing is known. -/
def Obligations.SampleTakesOneDraw : Prop :=
  ∀ s : State,
    (∀ (b : Bool) (rest : List Bool), s.answers = b :: rest →
      exec .dqSmp s = .next { s with answers := rest, drawn := s.drawn + 1, ret := { s.ret with bit := b } }) ∧
    (s.answers = [] →
      exec .dqSmp s =
        .next { s with drawn := s.drawn + 1, ret := { s.ret with bit := Config.freeDraw s.drawn } })

/-- The frame of the ten micro-operations (R120): each leaves every field of the state but the pins, and `DQ_SMP`
leaves the pins too and changes only the draws and the returned bit. -/
def Obligations.MicroOperationsFrame : Prop :=
  ∀ (m : MicroOp) (s t : State), exec m.instr s = .next t →
    t.img = s.img ∧ t.shr = s.shr ∧ t.seq = s.seq ∧ t.busy = s.busy ∧ t.valid = s.valid ∧ t.kind = s.kind ∧
    t.ports = s.ports ∧ t.inputs = s.inputs ∧ t.ticks = s.ticks ∧
    t.ret.byte = s.ret.byte ∧ t.ret.enc = s.ret.enc ∧ t.ret.dec = s.ret.dec ∧ t.ret.digHi = s.ret.digHi ∧
    t.ret.digLo = s.ret.digLo ∧ t.ret.image = s.ret.image ∧ t.ret.calendar = s.ret.calendar ∧
    (m.samples = false → t.answers = s.answers ∧ t.drawn = s.drawn ∧ t.ret.bit = s.ret.bit) ∧
    (m.samples = true → t.pins = s.pins)

/-! ## Procedures -/

/-- R132: `WRBIT(b)`. The line becomes an output at level `b`, write-enable is pulsed and ends high; chip-enable and
output-enable are untouched and nothing else changes, whether chip-enable is asserted or not. With chip-enable asserted
the chip takes exactly the bit `b`, at the one fall of `we_n`; with chip-enable deasserted it takes nothing (R54, R134).
With the rule's example. -/
def Obligations.WrbitWritesOneBit : Prop :=
  ∀ (b : Bool) (s : State),
    opid (.wrbit b) = 0x80 ∧
    (wrbitTrace b).map (fun x => x.op) = [.dqOut, .dqDrv b, .weLo, .weHi] ∧
    exec (.wrbit b) s = .next { s with pins := { s.pins with dqDir := true, dqOut := b, weN := true } } ∧
    (s.pins.ceN = false → s.pins.weN = true → committed (wrbitTrace b) s.pins = [some b]) ∧
    (s.pins.ceN = true → committed (wrbitTrace b) s.pins = []) ∧
    waveform (wrbitTrace true) ⟨false, true, true, true, false⟩ =
      [⟨false, true, true, true, false⟩, ⟨false, true, true, true, true⟩, ⟨false, true, false, true, true⟩,
        ⟨false, true, true, true, true⟩]

/-- R133: `RDBIT()`. Output-enable is pulsed and ends high, one draw is taken between its edges and returned;
chip-enable, write-enable, the direction and the latch are untouched, and nothing else changes; with the rule's
example. -/
def Obligations.RdbitReturnsOneDraw : Prop :=
  ∀ s : State,
    opid .rdbit = 0x81 ∧
    (rdbitTrace .none).map (fun x => x.op) = [.oeLo, .dqSmp, .oeHi] ∧
    exec .rdbit s = .next { s with
      pins := { s.pins with oeN := true }
      answers := s.answers.tail
      drawn := s.drawn + 1
      ret := { s.ret with bit := s.drawAt 0 } } ∧
    samplePins (rdbitTrace .none) s.pins = [{ s.pins with oeN := false }] ∧
    waveform (rdbitTrace .none) ⟨false, true, true, false, false⟩ =
      [⟨false, true, true, false, false⟩, ⟨false, false, true, false, false⟩, ⟨false, true, true, false, false⟩] ∧
    samplePositions (rdbitTrace .none) ⟨false, true, true, false, false⟩ = [1]

/-- R150, R151: `SENDB(v)` answers the state with `ce_n = 1`, `oe_n` untouched, `we_n = 1`, `dq_dir = 1`,
`dq_out = v[7]`, and nothing else changed. Chip-enable comes first, the direction second: between the two the line
has the direction the previous operation left. -/
def Obligations.SendbLeavesLineOutput : Prop :=
  ∀ (v : Byte) (s : State),
    exec (.sendb v) s = .next { s with
      pins := { ceN := true, oeN := s.pins.oeN, weN := true, dqDir := true, dqOut := v.getLsbD 7 } } ∧
    (sendbTrace v).length = 35 ∧
    (pinHistory (sendbTrace v) s.pins).take 3 =
      [s.pins, { s.pins with ceN := false }, { s.pins with ceN := false, dqDir := true }]

/-- R155, R156: `RECVB()` answers the state with `ce_n = 1`, `oe_n = 1`, `we_n` and `dq_out` untouched, `dq_dir = 0`,
with eight draws taken, the first one as bit 0, assembled in `SHR` and returned, and nothing else changed. The direction
comes first, chip-enable second. -/
def Obligations.RecvbReturnsEightDraws : Prop :=
  ∀ s : State,
    let v := assemble fun i => s.drawAt i.val
    exec .recvb s = .next { s with
      pins := { s.pins with ceN := true, oeN := true, dqDir := false }
      shr := v
      answers := s.answers.drop 8
      drawn := s.drawn + 8
      ret := { s.ret with bit := s.drawAt 7, byte := v } } ∧
    (recvbTrace .toRet).length = 27 ∧
    (pinHistory (recvbTrace .toRet) s.pins).take 3 =
      [s.pins, { s.pins with dqDir := false }, { s.pins with dqDir := false, ceN := false }]

/-- R171, R172, R173: `WAKE()` answers the pins `11110` from whatever pins it is entered with; the one sampled bit is
taken and reaches no register of the block; nothing else changes. -/
def Obligations.WakeLeavesPins : Prop :=
  ∀ s : State,
    exec .wake s = .next { s with
      pins := { ceN := true, oeN := true, weN := true, dqDir := true, dqOut := false }
      answers := s.answers.tail
      drawn := s.drawn + 1
      ret := { s.ret with bit := s.drawAt 0 } }

/-- The frame of the five procedures (R87, R120): none writes `IMG`, `SEQ` or a flag, or the host's side; only `RECVB`
writes `SHR`; the codec results stay. -/
def Obligations.ProceduresFrame : Prop :=
  ∀ (i : Instr) (xs : List Slot) (s t : State), procedureTrace i = some xs → exec i s = .next t →
    t.img = s.img ∧ t.seq = s.seq ∧ t.busy = s.busy ∧ t.valid = s.valid ∧ t.kind = s.kind ∧
    t.ports = s.ports ∧ t.inputs = s.inputs ∧ t.ticks = s.ticks ∧
    t.ret.enc = s.ret.enc ∧ t.ret.dec = s.ret.dec ∧ t.ret.digHi = s.ret.digHi ∧ t.ret.digLo = s.ret.digLo ∧
    t.ret.image = s.ret.image ∧ t.ret.calendar = s.ret.calendar ∧
    (i ≠ .recvb → t.shr = s.shr ∧ t.ret.byte = s.ret.byte) ∧
    t.drawn = s.drawn + xs.countP (fun x => x.op.samples) ∧
    t.answers = s.answers.drop (xs.countP fun x => x.op.samples)

/-- R159: chip-enable is high on entry to and on exit from both byte operations, and low throughout the 8 bit frames in
between: asserted and deasserted once per byte. -/
def Obligations.ChipEnableOncePerByte : Prop :=
  ∀ (v : Byte) (k : Sink) (p : Pins), p.ceN = true →
    (pinHistory (sendbTrace v) p).map (fun q => q.ceN) = true :: (List.replicate 34 false ++ [true]) ∧
    (pinHistory (recvbTrace k) p).map (fun q => q.ceN) = true :: true :: (List.replicate 25 false ++ [true])

/-- R158: with `we_n` high on entry, `SENDB(v)` commits the levels `v[0]`, ..., `v[7]` in that order, at its eight falls
of `we_n`; if the environment answers `v[0]`, ..., `v[7]`, `RECVB` returns `v`. So what is played back as it was
committed comes back as it was sent. -/
def Obligations.BitOrderNeverReversed : Prop :=
  (∀ (v : Byte) (p : Pins), p.weN = true →
    committed (sendbTrace v) p = octet.map fun i => some (bitOf v i)) ∧
  (∀ (v : Byte) (s : State), (∀ i : Fin 8, s.drawAt i.val = bitOf v i) →
    ∃ t, exec .recvb s = .next t ∧ t.ret.byte = v ∧ t.shr = v) ∧
  (∀ (v : Byte) (s : State) (p : Pins) (rest : List Bool), p.weN = true →
    s.answers.map some = committed (sendbTrace v) p ++ rest.map some →
    ∃ t, exec .recvb s = .next t ∧ t.ret.byte = v)

/-- R151, R156, R22: no procedure restores the direction it found. `SENDB` and `WAKE` leave the line an output, `RECVB`
and the prime frame an input; a read cycle leaves it an input, a write cycle an output, driving `IMG[7][7]`. -/
def Obligations.DirectionLeftBehind : Prop :=
  ∀ (p : Pins) (v : Byte) (k : Sink) (img : RegisterImage),
    (pinsAfter (sendbTrace v) p).dqDir = true ∧ (pinsAfter (recvbTrace k) p).dqDir = false ∧
    (pinsAfter primeTrace p).dqDir = false ∧ (pinsAfter wakeTrace p).dqDir = true ∧
    (pinsAfter readTrace p).dqDir = false ∧ (pinsAfter readTrace p).dqOut = false ∧
    (pinsAfter (writeTrace img) p).dqDir = true ∧ (pinsAfter (writeTrace img) p).dqOut = img.b7.getLsbD 7

/-! ## Codec functions -/

/-- R101, R102, R103: `BCDENC` on every byte: the formula, its three ranges, its low digit, where it is injective, and
the spec's examples. -/
def Obligations.BcdencOnEveryByte : Prop :=
  (∀ (d : Byte) (s : State), opid (.bcdenc d) = 0xC0 ∧ exec (.bcdenc d) s = .next { s with ret := { s.ret with enc := bcdEnc d } }) ∧
  (∀ d : Byte, (bcdEnc d).toNat = (d.toNat / 10 * 16 + d.toNat % 10) % 256) ∧
  (∀ d : Byte, d.toNat ≤ 99 → validBcd (bcdEnc d) = true) ∧
  (∀ d : Byte, d.toNat ≤ 159 →
    (bcdEnc d).toNat / 16 = d.toNat / 10 ∧ (bcdEnc d).toNat % 16 = d.toNat % 10) ∧
  (∀ d : Byte, 160 ≤ d.toNat → (bcdEnc d).toNat = d.toNat / 10 % 16 * 16 + d.toNat % 10) ∧
  (∀ d : Byte, (bcdEnc d).toNat % 16 = d.toNat % 10) ∧
  (∀ d e : Byte, d.toNat ≤ 159 → e.toNat ≤ 159 → bcdEnc d = bcdEnc e → d = e) ∧
  bcdEnc 27 = 0x27 ∧ bcdEnc 13 = 0x13 ∧ bcdEnc 100 = 0xA0 ∧ bcdEnc 159 = 0xF9 ∧ bcdEnc 160 = 0x00 ∧
  bcdEnc 255 = 0x95 ∧ bcdEnc 0 = bcdEnc 160

/-- R104, R105: `BCDDEC` on every byte: the formula, never more than 165, injective on valid packed BCD, and the
spec's examples. -/
def Obligations.BcddecOnEveryByte : Prop :=
  (∀ (b : Byte) (s : State), opid (.bcddec b) = 0xC1 ∧ exec (.bcddec b) s = .next { s with ret := { s.ret with dec := bcdDec b } }) ∧
  (∀ b : Byte, (bcdDec b).toNat = b.toNat / 16 * 10 + b.toNat % 16 ∧ (bcdDec b).toNat ≤ 165) ∧
  (∀ b c : Byte, validBcd b = true → validBcd c = true → bcdDec b = bcdDec c → b = c) ∧
  bcdDec 0x27 = 27 ∧ bcdDec 0x1A = 20 ∧ bcdDec 0x20 = 20 ∧ bcdDec 0xA0 = 100 ∧ bcdDec 0xFF = 165

/-- R106: the inverse laws of the codec and where each ends. -/
def Obligations.BcdInverseLaws : Prop :=
  (∀ d : Byte, d.toNat ≤ 159 → bcdDec (bcdEnc d) = d) ∧
  (∀ d : Byte, 160 ≤ d.toNat → bcdDec (bcdEnc d) ≠ d) ∧ bcdDec (bcdEnc 160) = 0 ∧
  (∀ b : Byte, b.toNat % 16 ≤ 9 → bcdEnc (bcdDec b) = b) ∧
  (∀ b : Byte, 10 ≤ b.toNat % 16 → bcdEnc (bcdDec b) ≠ b) ∧
  bcdEnc (bcdDec 0x1A) = 0x20 ∧ bcdEnc (bcdDec 0xA0) = 0xA0

/-- R107, R108, R110: `DIGPAIR` maps each nibble on its own to `0x30` plus the nibble, tens character first; it is
injective; on valid packed BCD its characters are the two decimal digits of `BCDDEC`. The code `0x30` of the character
`0` is from general knowledge by R107's own mark (G2; log entry 16, PRESUMED). -/
def Obligations.DigpairMapsNibbles : Prop :=
  (∀ (b : Byte) (s : State), opid (.digpair b) = 0xC2 ∧
    exec (.digpair b) s = .next { s with ret := { s.ret with digHi := digHi b, digLo := digLo b } }) ∧
  (∀ b : Byte, (digHi b).toNat = 0x30 + b.toNat / 16 ∧ (digLo b).toNat = 0x30 + b.toNat % 16) ∧
  (∀ b c : Byte, digHi b = digHi c → digLo b = digLo c → b = c) ∧
  (∀ b : Byte, validBcd b = true →
    (digHi b).toNat = 0x30 + (bcdDec b).toNat / 10 ∧ (digLo b).toNat = 0x30 + (bcdDec b).toNat % 10) ∧
  [0x00, 0x07, 0x99, 0x1A, 0xA0, 0xFF].map (fun b => (digHi b, digLo b)) =
    [(0x30, 0x30), (0x30, 0x37), (0x39, 0x39), (0x31, 0x3A), (0x3A, 0x30), (0x3F, 0x3F)]

/-- R190, R192, R193: `REGDEC` field by field: the whole byte through `BCDDEC` but for the day-of-week, which is the
low nibble of byte 4 whatever bits [7:4] hold. -/
def Obligations.RegdecByField : Prop :=
  regDec ⟨0x00, 0x27, 0x31, 0x15, 0x07, 0x19, 0x02, 0x20⟩ = ⟨0, 27, 31, 15, 7, 19, 2, 20⟩ ∧
  ∀ (img : RegisterImage) (s : State), opid (.regdec img) = 0xC4 ∧
    exec (.regdec img) s = .next { s with ret := { s.ret with calendar :=
      { subsec := bcdDec (img.get 0), second := bcdDec (img.get 1), minute := bcdDec (img.get 2),
        hour := bcdDec (img.get 3), dow := BitVec.ofNat 8 ((img.get 4).toNat % 16), date := bcdDec (img.get 5),
        month := bcdDec (img.get 6), year := bcdDec (img.get 7) } } }

/-- R197, R198, R199: `REGENC` field by field: byte 0 is `00` whatever the sub-second, and nothing is OR-ed in. -/
def Obligations.RegencByField : Prop :=
  regEnc ⟨0, 0, 5, 9, 3, 31, 12, 25⟩ = ⟨0x00, 0x00, 0x05, 0x09, 0x03, 0x31, 0x12, 0x25⟩ ∧
  ∀ (ct : CalendarTime) (s : State), opid (.regenc ct) = 0xC3 ∧
    exec (.regenc ct) s = .next { s with ret := { s.ret with image :=
      ⟨0x00, bcdEnc ct.second, bcdEnc ct.minute, bcdEnc ct.hour, bcdEnc ct.dow, bcdEnc ct.date, bcdEnc ct.month,
        bcdEnc ct.year⟩ } }

/-- R202: the round trips of the register codec, exactly. Encoding and decoding gives back the calendar with sub-second
0 when the six unmasked fields are in 0..159 and the day-of-week in 0..9; any larger day-of-week comes back as
`dow % 10`. Decoding and encoding gives back the image when its low nibbles are valid, less the sub-second and the
high nibble of byte 4. -/
def Obligations.RegisterCodecRoundTrips : Prop :=
  (∀ ct : CalendarTime, ct.second.toNat ≤ 159 → ct.minute.toNat ≤ 159 → ct.hour.toNat ≤ 159 →
    ct.date.toNat ≤ 159 → ct.month.toNat ≤ 159 → ct.year.toNat ≤ 159 →
    regDec (regEnc ct) = { ct with subsec := 0, dow := BitVec.ofNat 8 (ct.dow.toNat % 10) } ∧
    (ct.dow.toNat ≤ 9 → regDec (regEnc ct) = { ct with subsec := 0 })) ∧
  (∀ ct : CalendarTime, ct.documented = true → ct.subsec = 0 → regDec (regEnc ct) = ct) ∧
  (∀ img : RegisterImage, (∀ k, (img.get k).toNat % 16 ≤ 9) →
    regEnc (regDec img) = { img with b0 := 0, b4 := img.b4 &&& 0x0F }) ∧
  (∀ img : RegisterImage, (∀ k, (img.get k).toNat % 16 ≤ 9) → img.b0 = 0 → img.b4.toNat / 16 = 0 →
    regEnc (regDec img) = img)

/-- R75, R192, R200: the oscillator flag. A documented day-of-week writes bits [7:4] of byte 4 as 0, so `OSC_DIS = 0`;
bit 5 is written 1 exactly for the day-of-week values R200 lists; on decode the flag has no influence. -/
def Obligations.OscillatorFlag : Prop :=
  (∀ ct : CalendarTime, 1 ≤ ct.dow.toNat → ct.dow.toNat ≤ 7 →
    (regEnc ct).b4.toNat / 16 = 0 ∧ oscDis (regEnc ct) = false) ∧
  (∀ ct : CalendarTime, oscDis (regEnc ct) = true ↔
    (20 ≤ ct.dow.toNat ∧ ct.dow.toNat ≤ 39) ∨ (60 ≤ ct.dow.toNat ∧ ct.dow.toNat ≤ 79) ∨
    (100 ≤ ct.dow.toNat ∧ ct.dow.toNat ≤ 119) ∨ (140 ≤ ct.dow.toNat ∧ ct.dow.toNat ≤ 159) ∨
    (180 ≤ ct.dow.toNat ∧ ct.dow.toNat ≤ 199) ∨ (220 ≤ ct.dow.toNat ∧ ct.dow.toNat ≤ 239)) ∧
  (∀ (img : RegisterImage) (h : Byte), h.toNat % 16 = 0 →
    regDec { img with b4 := (img.b4 &&& 0x0F) ||| h } = regDec img)

/-- The frame of the five codec functions (R100, R185): they "read no state, write no state, touch no pin". Only their
own returned value changes. -/
def Obligations.CodecFunctionsFrame : Prop :=
  ∀ (i : Instr) (s t : State),
    ((∃ d, i = .bcdenc d) ∨ (∃ b, i = .bcddec b) ∨ (∃ b, i = .digpair b) ∨ (∃ ct, i = .regenc ct) ∨
      ∃ img, i = .regdec img) →
    exec i s = .next t →
    SameBlock s t ∧ t.ports = s.ports ∧ t.inputs = s.inputs ∧ t.ticks = s.ticks ∧
    t.answers = s.answers ∧ t.drawn = s.drawn ∧ t.ret.bit = s.ret.bit ∧ t.ret.byte = s.ret.byte

/-! ## Commands -/

/-- R216, R213, R214, R217, R220, R221: the three commands. `NOP` changes nothing; `RDCYC` and `WRCYC` are accepted when
`busy = 0`, with `IMG <- REGENC(ct)` for `WRCYC`; while `busy = 1` they behave as `NOP`. -/
def Obligations.CommandsAccept : Prop :=
  ∀ (s : State) (ct : CalendarTime),
    exec .nop s = .next s ∧
    (s.busy = false → exec .rdcyc s =
      .next { s with kind := false, valid := false, busy := true, seq := .run 0 }) ∧
    (s.busy = false → exec (.wrcyc ct) s =
      .next { s with
        img := regEnc ct, kind := true, valid := false, busy := true, seq := .run 0
        ret := { s.ret with image := regEnc ct } }) ∧
    (s.busy = true → exec .rdcyc s = .next s ∧ exec (.wrcyc ct) s = .next s)

/-- The frame of the commands (R213, R25): no pin, no `SHR`, no draw; `IMG` only by `WRCYC`. -/
def Obligations.CommandsFrame : Prop :=
  ∀ (p : InputFrame) (s t : State), exec (commandOf p) s = .next t →
    t.pins = s.pins ∧ t.shr = s.shr ∧ t.answers = s.answers ∧ t.drawn = s.drawn ∧
    t.ports = s.ports ∧ t.inputs = s.inputs ∧ t.ticks = s.ticks ∧
    (p.cmd ≠ 0b10 → t.img = s.img ∧ t.ret = s.ret) ∧
    (p.cmd = 0b00 ∨ p.cmd = 0b11 ∨ s.busy = true → t = s)

/-- R216, R25: with `NOP` (or the reserved code) held, the state stays as it is for as long as one likes, and a finished
cycle's result stays readable. -/
def Obligations.NopHoldsForever : Prop :=
  ∀ (n : Nat) (s : State), s.busy = false →
    (∀ j < n, (s.frameAt j).rst = false ∧ ((s.frameAt j).cmd = 0b00 ∨ (s.frameAt j).cmd = 0b11)) →
    ∃ t, runSteps n s = .next t ∧ SameBlock s t ∧ t.readImage = s.readImage ∧ t.readCalendar = s.readCalendar

/-- R212, R214, R281: while `busy = 1` the step does not look at `cmd`, `ct_in` or the codec ports: two hosts that
differ only in those get the same block. -/
def Obligations.BusyIgnoresTheHost : Prop :=
  ∀ (s t : State) (p q : InputFrame) (rest : List InputFrame), s.busy = true → p.rst = q.rst →
    step { s with inputs := p :: rest } = .next t →
    ∃ u, step { s with inputs := q :: rest } = .next u ∧ SameBlock t u ∧
      u.answers = t.answers ∧ u.drawn = t.drawn ∧ u.inputs = t.inputs ∧ u.ticks = t.ticks

/-! ## The trace -/

/-- R71: the lengths of the frames and how often each micro-operation occurs in the wake sequence and the cycles. -/
def Obligations.FrameLengthsAndCounts : Prop :=
  (∀ b, (wrbitTrace b).length = 4) ∧ (∀ k, (rdbitTrace k).length = 3) ∧ (∀ v, (sendbTrace v).length = 35) ∧
  (∀ k, (recvbTrace k).length = 27) ∧ primeTrace.length = 6 ∧ wakeTrace.length = 286 ∧ readTrace.length = 502 ∧
  (∀ img, (writeTrace img).length = 566) ∧
  [countOp .ceLo wakeTrace, countOp .ceHi wakeTrace, countOp .oeLo wakeTrace, countOp .dqSmp wakeTrace,
    countOp .oeHi wakeTrace, countOp .weLo wakeTrace, countOp .weHi wakeTrace, countOp .dqIn wakeTrace,
    countOp .dqOut wakeTrace, countDrv wakeTrace] = [9, 9, 1, 1, 1, 64, 64, 1, 72, 64] ∧
  [countOp .ceLo readTrace, countOp .ceHi readTrace, countOp .oeLo readTrace, countOp .dqSmp readTrace,
    countOp .oeHi readTrace, countOp .weLo readTrace, countOp .weHi readTrace, countOp .dqIn readTrace,
    countOp .dqOut readTrace, countDrv readTrace] = [17, 17, 65, 65, 65, 64, 64, 9, 72, 64] ∧
  ∀ img, [countOp .ceLo (writeTrace img), countOp .ceHi (writeTrace img), countOp .oeLo (writeTrace img),
    countOp .dqSmp (writeTrace img), countOp .oeHi (writeTrace img), countOp .weLo (writeTrace img),
    countOp .weHi (writeTrace img), countOp .dqIn (writeTrace img), countOp .dqOut (writeTrace img),
    countDrv (writeTrace img)] = [17, 17, 1, 1, 1, 128, 128, 1, 144, 128]

/-- R16: how the index decomposes, row by row of its table. -/
def Obligations.IndexTable : Prop :=
  (∀ img, ∀ xs ∈ [readTrace, writeTrace img],
    (xs.take 6).map (fun x => x.op) = [.ceLo, .dqIn, .oeLo, .dqSmp, .oeHi, .ceHi] ∧
    ∀ (j : Fin 8) (n : Nat), n < 35 → xs[6 + 35 * j.val + n]? = (sendbTrace (wakeCode j))[n]?) ∧
  (∀ (k : Fin 8) (n : Nat), n < 27 → readTrace[286 + 27 * k.val + n]? = (recvbTrace (.toImg k))[n]?) ∧
  (∀ (img : RegisterImage) (k : Fin 8) (n : Nat), n < 35 →
    (writeTrace img)[286 + 35 * k.val + n]? = (sendbTrace (img.get k))[n]?) ∧
  (∀ (v : Byte) (i : Fin 8), ((sendbTrace v).take 2).map (fun x => x.op) = [.ceLo, .dqOut] ∧
    (((sendbTrace v).drop (2 + 4 * i.val)).take 4).map (fun x => x.op) = [.dqOut, .dqDrv (bitOf v i), .weLo, .weHi] ∧
    ((sendbTrace v).drop 34).map (fun x => x.op) = [.ceHi]) ∧
  (∀ (k i : Fin 8), ((recvbTrace (.toImg k)).take 2).map (fun x => x.op) = [.dqIn, .ceLo] ∧
    ((recvbTrace (.toImg k)).drop (2 + 3 * i.val)).take 3 = [⟨.oeLo, .none⟩, ⟨.dqSmp, .toShr i⟩, ⟨.oeHi, .none⟩] ∧
    (recvbTrace (.toImg k)).drop 26 = [⟨.ceHi, .toImg k⟩])

/-- R77, R45, R220: what a write cycle commits at its 128 falls of `we_n`, from any pins with `we_n` high: the 64 bits
of the wake code as R77 writes them, then bit `n` of the image on `img_out` for `n` = 0..63. A read cycle commits the
wake code only. -/
def Obligations.CommittedStream : Prop :=
  ∀ (img : RegisterImage) (p : Pins), p.weN = true →
    let wakeBits : List Nat :=
      [1,0,1,0,0,0,1,1, 0,1,0,1,1,1,0,0, 1,1,0,0,0,1,0,1, 0,0,1,1,1,0,1,0,
       1,0,1,0,0,0,1,1, 0,1,0,1,1,1,0,0, 1,1,0,0,0,1,0,1, 0,0,1,1,1,0,1,0]
    committed readTrace p = wakeBits.map (fun b => some (b == 1)) ∧
    committed (writeTrace img) p =
      wakeBits.map (fun b => some (b == 1)) ++ (List.range 64).map fun n => some (img.toPort.getLsbD n)

/-- R137, R6: a micro-operation that leaves the pins as they are can be elided from a trace without changing the pin
waveform, wherever it stands; if it is no sample, the samples stay at their positions in the waveform too. -/
def Obligations.RedundantWritesAreInvisible : Prop :=
  ∀ (xs ys : List Slot) (x : Slot) (p : Pins), x.op.onPins (pinsAfter xs p) = pinsAfter xs p →
    waveform (xs ++ x :: ys) p = waveform (xs ++ ys) p ∧
    (x.op.samples = false → samplePositions (xs ++ x :: ys) p = samplePositions (xs ++ ys) p)

/-- R174, R6: the pin waveform of the prime frame, entered from an input and from an output, and where in it the one
sample is taken. -/
def Obligations.PrimeFrameWaveforms : Prop :=
  ∀ q : Bool,
    waveform primeTrace ⟨true, true, true, false, q⟩ =
      [⟨true, true, true, false, q⟩, ⟨false, true, true, false, q⟩, ⟨false, false, true, false, q⟩,
        ⟨false, true, true, false, q⟩, ⟨true, true, true, false, q⟩] ∧
    samplePositions primeTrace ⟨true, true, true, false, q⟩ = [2] ∧
    waveform primeTrace ⟨true, true, true, true, q⟩ =
      [⟨true, true, true, true, q⟩, ⟨false, true, true, true, q⟩, ⟨false, true, true, false, q⟩,
        ⟨false, false, true, false, q⟩, ⟨false, true, true, false, q⟩, ⟨true, true, true, false, q⟩] ∧
    samplePositions primeTrace ⟨true, true, true, true, q⟩ = [3]

/-! ## The whole machine -/

/-- The machine's invariant is kept by every step from every state that satisfies it. -/
def Obligations.StepKeepsInvariant : Prop :=
  ∀ s t : State, s.Inv → step s = .next t → t.Inv

/-- The machine's invariant holds after reset. -/
def Obligations.ResetMeetsInvariant : Prop := State.reset.Inv

/-- R212, R240, R246: from every state that satisfies the invariant there is a next state: nothing is a fault, a stuck
state or a refusal, whatever the host presents and the environment answers. -/
def Obligations.AlwaysANextState : Prop :=
  ∀ s : State, s.Inv → ∃ t, step s = .next t

/-- R24: the pin invariants (a) to (f), in every state that satisfies the machine's invariant, and R18: `busy = 1`
exactly when `SEQ` is not `IDLE`. The machine's invariant holds after reset and every step keeps it, so they hold in every
state reachable from reset. -/
def Obligations.PinInvariants : Prop :=
  State.reset.Inv ∧ (∀ s t : State, s.Inv → step s = .next t → t.Inv) ∧
  ∀ s : State, s.Inv →
    s.pins.Safe ∧ (s.busy = false → s.pins.AtRest) ∧ (s.busy = true ↔ s.seq ≠ .idle) ∧
    ∀ (n : Nat) (x : Slot), s.seq = .run n → s.trace[n]? = some x →
      (x.op = .dqSmp → s.pins.ceN = false ∧ s.pins.oeN = false ∧ s.pins.weN = true ∧ s.pins.dqDir = false) ∧
      (x.op = .weLo → s.pins.dqDir = true ∧ s.trace[n - 1]? = some (.plain (.dqDrv s.pins.dqOut)))

/-- R121, R123, R125, R129, R134, R135: what always holds when the sequencer issues a micro-operation: `CE_LO` only with
chip-enable high, `OE_LO` only with the chip enabled and the line an input, `DQ_DRV` and `WE_LO` only with the chip
enabled and the line an output. -/
def Obligations.SequencerIssueConditions : Prop :=
  ∀ (s : State) (n : Nat) (x : Slot), s.Inv → s.seq = .run n → s.trace[n]? = some x →
    (x.op = .ceLo → s.pins.ceN = true) ∧
    (x.op = .oeLo → s.pins.ceN = false ∧ s.pins.dqDir = false ∧ s.pins.weN = true) ∧
    (∀ b, x.op = .dqDrv b → s.pins.ceN = false ∧ s.pins.dqDir = true) ∧
    (x.op = .weLo → s.pins.ceN = false ∧ s.pins.dqDir = true ∧ s.pins.oeN = true)

/-- R15, R288: a host reads no value from the image or the calendar from reset until a cycle completes, and while one
runs. -/
def Obligations.NoValueWhileRunning : Prop :=
  (∀ (s : State) (n : Nat), s.Inv → s.seq = .run n → s.readImage = none ∧ s.readCalendar = none) ∧
  (∀ s t : State, s.nextFrame.rst = true → step s = .next t → t.readImage = none ∧ t.readCalendar = none) ∧
  State.reset.readImage = none ∧ State.reset.readCalendar = none

/-- R16: the only transfers of control, from every state that satisfies the invariant: to `IDLE` at reset, from `IDLE` to
`RUN(0)` at acceptance, from `RUN(n)` to `RUN(n+1)`, and from the last index to `IDLE`. -/
def Obligations.TransfersOfControl : Prop :=
  ∀ s t : State, s.Inv → step s = .next t →
    (s.nextFrame.rst = true → t.seq = .idle) ∧
    (s.nextFrame.rst = false → s.seq = .idle →
      t.seq = if s.nextFrame.cmd = 0b01 ∨ s.nextFrame.cmd = 0b10 then .run 0 else .idle) ∧
    (∀ n, s.nextFrame.rst = false → s.seq = .run n →
      n ≤ (if s.kind then 565 else 501) ∧
      t.seq = if n = (if s.kind then 565 else 501) then .idle else .run (n + 1))

/-- R131, R172, R218, R224: nothing that is read steers the sequencer. Two machines that agree on the pins, the position,
the flags and the host, and on the image only while a write cycle is the current one, take steps that agree on them
again, whatever bits the environment answers each and whatever `SHR` and the image of a read hold. -/
def Obligations.DrawsSteerNothing : Prop :=
  ∀ s s' t : State, SameControl s s' → s'.inputs = s.inputs → s'.ticks = s.ticks →
    (s.kind = true → s'.img = s.img) → step s = .next t →
    ∃ t', step s' = .next t' ∧ SameControl t t' ∧ t'.inputs = t.inputs ∧ t'.ticks = t.ticks ∧
      (t.kind = true → t'.img = t.img)

/-- R87, R8, R58: the sequencer performs a procedure as exec does, which performs it at once (log entry 9). Where the next
micro-operations of the running cycle are those of a procedure, be they the last of the cycle, that many run steps without
a reset leave the pins, the draws and the sampled bit as exec of the procedure leaves them, and after `RECVB` the byte and
`SHR` as well. `SEQ` is that many indices on, or the cycle is complete. -/
def Obligations.SequencerPerformsProcedures : Prop :=
  ∀ (i : Instr) (xs : List Slot) (s u : State) (n : Nat),
    procedureTrace i = some xs → s.busy = true → s.seq = .run n → n + xs.length ≤ lastIndex s.kind + 1 →
    ((s.trace.drop n).take xs.length).map (fun x => x.op) = xs.map (fun x => x.op) →
    (∀ j < xs.length, (s.frameAt j).rst = false) → exec i s = .next u →
    ∃ t, runSteps xs.length s = .next t ∧ t.kind = s.kind ∧
      (n + xs.length ≤ lastIndex s.kind → t.seq = .run (n + xs.length) ∧ t.busy = true ∧ t.valid = s.valid) ∧
      (n + xs.length = lastIndex s.kind + 1 → t.seq = .idle ∧ t.busy = false ∧ t.valid = true) ∧
      t.pins = u.pins ∧ t.answers = u.answers ∧ t.drawn = u.drawn ∧ t.ret.bit = u.ret.bit ∧
      (i = .recvb → t.shr = u.shr ∧ t.ret.byte = u.ret.byte)

/-- R217, R218, R219, R223: the whole read cycle, from any idle state whose host asks for it and does not reset during
it. After `j` run steps the pins are as the first `j` micro-operations leave them, from whatever pins it began with, so
the waveform does not depend on the draws. After one accepting step and 502 run steps the cycle is complete: draw
number `1 + 8k + i` is `IMG[k][i]`, 65 draws were taken, the pins are `11100` and the host reads the decoded image. -/
def Obligations.ReadCycle : Prop :=
  ∀ s : State, s.busy = false → (s.frameAt 0).rst = false → (s.frameAt 0).cmd = 0b01 →
    (∀ j, 1 ≤ j → j ≤ 502 → (s.frameAt j).rst = false) →
    (∀ j ≤ 501, ∃ u, runSteps (j + 1) s = .next u ∧ u.seq = .run j ∧ u.busy = true ∧ u.valid = false ∧
      u.kind = false ∧ u.pins = pinsAfter (readTrace.take j) s.pins) ∧
    ∃ t, runSteps 503 s = .next t ∧ t.seq = .idle ∧ t.busy = false ∧ t.valid = true ∧ t.kind = false ∧
      t.pins = { ceN := true, oeN := true, weN := true, dqDir := false, dqOut := false } ∧
      (∀ k i : Fin 8, bitOf (t.img.get k) i = s.drawAt (1 + 8 * k.val + i.val)) ∧
      t.drawn = s.drawn + 65 ∧ t.readImage = some t.img ∧ t.readCalendar = some (regDec t.img)

/-- R220, R221, R222, R223: the whole write cycle, from any idle state whose host asks for it and does not reset during
it. `ct_in` is read in the accepting step only; after `j` run steps the pins are as the first `j` micro-operations of
the cycle leave them; after one accepting step and 566 run steps it is complete: the image sent is still in `IMG`, one
draw was taken, the line is left an output driving `IMG[7][7]`, and the host reads the decoded image. -/
def Obligations.WriteCycle : Prop :=
  ∀ s : State, s.busy = false → (s.frameAt 0).rst = false → (s.frameAt 0).cmd = 0b10 →
    (∀ j, 1 ≤ j → j ≤ 566 → (s.frameAt j).rst = false) →
    let img := regEnc (CalendarTime.ofPort (s.frameAt 0).ctIn)
    (∀ j ≤ 565, ∃ u, runSteps (j + 1) s = .next u ∧ u.seq = .run j ∧ u.busy = true ∧ u.valid = false ∧
      u.kind = true ∧ u.img = img ∧ u.pins = pinsAfter ((writeTrace img).take j) s.pins) ∧
    ∃ t, runSteps 567 s = .next t ∧ t.seq = .idle ∧ t.busy = false ∧ t.valid = true ∧ t.kind = true ∧
      t.img = img ∧
      t.pins = { ceN := true, oeN := true, weN := true, dqDir := true, dqOut := img.b7.getLsbD 7 } ∧
      t.drawn = s.drawn + 1 ∧ t.shr = s.shr ∧ t.readImage = some img ∧ t.readCalendar = some (regDec img)

/-! ## What an observer sees -/

/-- R6 (b), R157, R174: a sample stands at a position of the pin waveform, and the vector there is the one in which it is
taken, from whatever pins a trace is entered; and the positions of the eight samples of `RECVB`, entered with the line an
input and an output. -/
def Obligations.SamplesStandInTheWaveform : Prop :=
  (∀ (xs : List Slot) (p : Pins),
    (samplePositions xs p).map (fun n => (waveform xs p)[n]?) = (samplePins xs p).map some) ∧
  (∀ (k : Sink) (q : Bool),
    samplePositions (recvbTrace k) ⟨true, true, true, false, q⟩ = [2, 4, 6, 8, 10, 12, 14, 16] ∧
    samplePositions (recvbTrace k) ⟨true, true, true, true, q⟩ = [3, 5, 7, 9, 11, 13, 15, 17])

/-- R6 (a), (b), R54, R211 to R213: what an observer of the pins sees of a run of the machine. A step with `rst` asserted
shows the reset pins and no sample, an idle step the pins as they were and no sample. Run steps, up to the end of the
cycle, show the film of the micro-operations they perform. So a whole read or write cycle, with its accepting step, shows
the waveform of its trace, the samples at their positions, and commits to the chip what its trace commits. -/
def Obligations.RunShowsTrace : Prop :=
  (∀ s : State, s.nextFrame.rst = true → runFilm 1 s = [⟨Pins.reset, false⟩]) ∧
  (∀ s : State, s.nextFrame.rst = false → s.busy = false → runFilm 1 s = [⟨s.pins, false⟩]) ∧
  (∀ (s : State) (n m : Nat), s.busy = true → s.seq = .run n → n + m ≤ lastIndex s.kind + 1 →
    (∀ j < m, (s.frameAt j).rst = false) → runFilm m s = film ((s.trace.drop n).take m) s.pins) ∧
  (∀ s : State, s.busy = false → (s.frameAt 0).cmd = 0b01 → (∀ j ≤ 502, (s.frameAt j).rst = false) →
    runWaveform 503 s = waveform readTrace s.pins ∧ runPositions 503 s = samplePositions readTrace s.pins ∧
    runCommitted 503 s = committed readTrace s.pins) ∧
  (∀ s : State, s.busy = false → (s.frameAt 0).cmd = 0b10 → (∀ j ≤ 566, (s.frameAt j).rst = false) →
    let xs := writeTrace (regEnc (CalendarTime.ofPort (s.frameAt 0).ctIn))
    runWaveform 567 s = waveform xs s.pins ∧ runPositions 567 s = samplePositions xs s.pins ∧
    runCommitted 567 s = committed xs s.pins)

/-- R6 (c), (d), R15, R20: the outputs an observer sees of a step. After a step that answers a state with `busy = 0` they
are `valid`, `kind` and, with `valid = 1`, the image and `REGDEC` of it on the ports; while a cycle runs there are none;
and the codec ports show the functions of the levels of the step whatever the step is. -/
def Obligations.ObserverSeesOutputs : Prop :=
  ∀ s t : State, step s = .next t →
    observe 1 s = [sight s t] ∧
    (t.busy = true → (sight s t).outputs = none) ∧
    (t.busy = false → t.valid = false →
      (sight s t).outputs = some { valid := false, kind := t.kind, image := none, ct := none }) ∧
    (t.busy = false → t.valid = true →
      (sight s t).outputs =
        some { valid := true, kind := t.kind, image := some t.img.toPort, ct := some (regDec t.img).toPort }) ∧
    (sight s t).codecs = {
      encB := bcdEnc s.nextFrame.encD
      decD := bcdDec s.nextFrame.decB
      dpHi := digHi s.nextFrame.dpB
      dpLo := digLo s.nextFrame.dpB }
end

