-- ==== Sys2Proof/Laws/State.lean ====
section
/-!
SUPPORT. One lemma per field of State per named update, so that no proof unfolds an update.
-/

namespace Sys2Proof.Machine

/-! The sample of `DQ_SMP`. -/

@[simp] theorem sample_pins (s : State) : (sample s).pins = s.pins := rfl
@[simp] theorem sample_img (s : State) : (sample s).img = s.img := rfl
@[simp] theorem sample_shr (s : State) : (sample s).shr = s.shr := rfl
@[simp] theorem sample_seq (s : State) : (sample s).seq = s.seq := rfl
@[simp] theorem sample_busy (s : State) : (sample s).busy = s.busy := rfl
@[simp] theorem sample_valid (s : State) : (sample s).valid = s.valid := rfl
@[simp] theorem sample_kind (s : State) : (sample s).kind = s.kind := rfl
@[simp] theorem sample_ports (s : State) : (sample s).ports = s.ports := rfl
@[simp] theorem sample_inputs (s : State) : (sample s).inputs = s.inputs := rfl
@[simp] theorem sample_ticks (s : State) : (sample s).ticks = s.ticks := rfl
@[simp] theorem sample_answers (s : State) : (sample s).answers = s.answers.tail := rfl
@[simp] theorem sample_drawn (s : State) : (sample s).drawn = s.drawn + 1 := rfl
@[simp] theorem sample_ret (s : State) : (sample s).ret = { s.ret with bit := s.draw } := rfl

/-! A micro-operation: it writes pins, and `DQ_SMP` alone advances the draws. -/

@[simp] theorem performMicro_pins (u : MicroOp) (s : State) : (performMicro u s).pins = u.onPins s.pins := by cases u <;> rfl
@[simp] theorem performMicro_img (u : MicroOp) (s : State) : (performMicro u s).img = s.img := by cases u <;> rfl
@[simp] theorem performMicro_shr (u : MicroOp) (s : State) : (performMicro u s).shr = s.shr := by cases u <;> rfl
@[simp] theorem performMicro_seq (u : MicroOp) (s : State) : (performMicro u s).seq = s.seq := by cases u <;> rfl
@[simp] theorem performMicro_busy (u : MicroOp) (s : State) : (performMicro u s).busy = s.busy := by cases u <;> rfl
@[simp] theorem performMicro_valid (u : MicroOp) (s : State) : (performMicro u s).valid = s.valid := by cases u <;> rfl
@[simp] theorem performMicro_kind (u : MicroOp) (s : State) : (performMicro u s).kind = s.kind := by cases u <;> rfl
@[simp] theorem performMicro_ports (u : MicroOp) (s : State) : (performMicro u s).ports = s.ports := by cases u <;> rfl
@[simp] theorem performMicro_inputs (u : MicroOp) (s : State) : (performMicro u s).inputs = s.inputs := by cases u <;> rfl
@[simp] theorem performMicro_ticks (u : MicroOp) (s : State) : (performMicro u s).ticks = s.ticks := by cases u <;> rfl
@[simp] theorem performMicro_answers (u : MicroOp) (s : State) : (performMicro u s).answers = if u.samples then s.answers.tail else s.answers := by cases u <;> rfl
@[simp] theorem performMicro_drawn (u : MicroOp) (s : State) : (performMicro u s).drawn = if u.samples then s.drawn + 1 else s.drawn := by cases u <;> rfl
@[simp] theorem performMicro_ret (u : MicroOp) (s : State) : (performMicro u s).ret = if u.samples then { s.ret with bit := s.draw } else s.ret := by cases u <;> rfl

/-! Taking the host's inputs. -/

@[simp] theorem takeInputs_pins (s : State) : (takeInputs s).pins = s.pins := rfl
@[simp] theorem takeInputs_img (s : State) : (takeInputs s).img = s.img := rfl
@[simp] theorem takeInputs_shr (s : State) : (takeInputs s).shr = s.shr := rfl
@[simp] theorem takeInputs_seq (s : State) : (takeInputs s).seq = s.seq := rfl
@[simp] theorem takeInputs_busy (s : State) : (takeInputs s).busy = s.busy := rfl
@[simp] theorem takeInputs_valid (s : State) : (takeInputs s).valid = s.valid := rfl
@[simp] theorem takeInputs_kind (s : State) : (takeInputs s).kind = s.kind := rfl
@[simp] theorem takeInputs_ports (s : State) : (takeInputs s).ports = s.nextFrame := rfl
@[simp] theorem takeInputs_inputs (s : State) : (takeInputs s).inputs = s.inputs.tail := rfl
@[simp] theorem takeInputs_ticks (s : State) : (takeInputs s).ticks = s.ticks + 1 := rfl
@[simp] theorem takeInputs_answers (s : State) : (takeInputs s).answers = s.answers := rfl
@[simp] theorem takeInputs_drawn (s : State) : (takeInputs s).drawn = s.drawn := rfl
@[simp] theorem takeInputs_ret (s : State) : (takeInputs s).ret = s.ret := rfl

/-! Reset. -/

@[simp] theorem resetBlock_pins (s : State) : (resetBlock s).pins = Pins.reset := rfl
@[simp] theorem resetBlock_img (s : State) : (resetBlock s).img = Config.freeImage s.ticks := rfl
@[simp] theorem resetBlock_shr (s : State) : (resetBlock s).shr = Config.freeShift s.ticks := rfl
@[simp] theorem resetBlock_seq (s : State) : (resetBlock s).seq = .idle := rfl
@[simp] theorem resetBlock_busy (s : State) : (resetBlock s).busy = false := rfl
@[simp] theorem resetBlock_valid (s : State) : (resetBlock s).valid = false := rfl
@[simp] theorem resetBlock_kind (s : State) : (resetBlock s).kind = false := rfl
@[simp] theorem resetBlock_ports (s : State) : (resetBlock s).ports = s.ports := rfl
@[simp] theorem resetBlock_inputs (s : State) : (resetBlock s).inputs = s.inputs := rfl
@[simp] theorem resetBlock_ticks (s : State) : (resetBlock s).ticks = s.ticks := rfl
@[simp] theorem resetBlock_answers (s : State) : (resetBlock s).answers = s.answers := rfl
@[simp] theorem resetBlock_drawn (s : State) : (resetBlock s).drawn = s.drawn := rfl
@[simp] theorem resetBlock_ret (s : State) : (resetBlock s).ret = s.ret := rfl

/-! Acceptance of a cycle command. -/

@[simp] theorem acceptCycle_pins (k : Bool) (s : State) : (acceptCycle k s).pins = s.pins := rfl
@[simp] theorem acceptCycle_img (k : Bool) (s : State) : (acceptCycle k s).img = s.img := rfl
@[simp] theorem acceptCycle_shr (k : Bool) (s : State) : (acceptCycle k s).shr = s.shr := rfl
@[simp] theorem acceptCycle_seq (k : Bool) (s : State) : (acceptCycle k s).seq = .run 0 := rfl
@[simp] theorem acceptCycle_busy (k : Bool) (s : State) : (acceptCycle k s).busy = true := rfl
@[simp] theorem acceptCycle_valid (k : Bool) (s : State) : (acceptCycle k s).valid = false := rfl
@[simp] theorem acceptCycle_kind (k : Bool) (s : State) : (acceptCycle k s).kind = k := rfl
@[simp] theorem acceptCycle_ports (k : Bool) (s : State) : (acceptCycle k s).ports = s.ports := rfl
@[simp] theorem acceptCycle_inputs (k : Bool) (s : State) : (acceptCycle k s).inputs = s.inputs := rfl
@[simp] theorem acceptCycle_ticks (k : Bool) (s : State) : (acceptCycle k s).ticks = s.ticks := rfl
@[simp] theorem acceptCycle_answers (k : Bool) (s : State) : (acceptCycle k s).answers = s.answers := rfl
@[simp] theorem acceptCycle_drawn (k : Bool) (s : State) : (acceptCycle k s).drawn = s.drawn := rfl
@[simp] theorem acceptCycle_ret (k : Bool) (s : State) : (acceptCycle k s).ret = s.ret := rfl

/-! The advance at the end of a run step. -/

@[simp] theorem advance_pins (n : Nat) (s : State) : (advance n s).pins = s.pins := by
  unfold advance; split <;> rfl
@[simp] theorem advance_img (n : Nat) (s : State) : (advance n s).img = s.img := by
  unfold advance; split <;> rfl
@[simp] theorem advance_shr (n : Nat) (s : State) : (advance n s).shr = s.shr := by
  unfold advance; split <;> rfl
@[simp] theorem advance_seq (n : Nat) (s : State) : (advance n s).seq = if n = lastIndex s.kind then .idle else .run (n + 1) := by
  unfold advance; split <;> rfl
@[simp] theorem advance_busy (n : Nat) (s : State) : (advance n s).busy = if n = lastIndex s.kind then false else s.busy := by
  unfold advance; split <;> rfl
@[simp] theorem advance_valid (n : Nat) (s : State) : (advance n s).valid = if n = lastIndex s.kind then true else s.valid := by
  unfold advance; split <;> rfl
@[simp] theorem advance_kind (n : Nat) (s : State) : (advance n s).kind = s.kind := by
  unfold advance; split <;> rfl
@[simp] theorem advance_ports (n : Nat) (s : State) : (advance n s).ports = s.ports := by
  unfold advance; split <;> rfl
@[simp] theorem advance_inputs (n : Nat) (s : State) : (advance n s).inputs = s.inputs := by
  unfold advance; split <;> rfl
@[simp] theorem advance_ticks (n : Nat) (s : State) : (advance n s).ticks = s.ticks := by
  unfold advance; split <;> rfl
@[simp] theorem advance_answers (n : Nat) (s : State) : (advance n s).answers = s.answers := by
  unfold advance; split <;> rfl
@[simp] theorem advance_drawn (n : Nat) (s : State) : (advance n s).drawn = s.drawn := by
  unfold advance; split <;> rfl
@[simp] theorem advance_ret (n : Nat) (s : State) : (advance n s).ret = s.ret := by
  unfold advance; split <;> rfl

/-! Delivery of the value of a trace entry. -/

@[simp] theorem deliver_pins (k : Sink) (s : State) : (k.deliver s).pins = s.pins := by
  cases k <;> rfl
@[simp] theorem deliver_img (k : Sink) (s : State) : (k.deliver s).img = match k with
      | .toImg i => s.img.set i s.shr
      | _ => s.img := by
  cases k <;> rfl
@[simp] theorem deliver_shr (k : Sink) (s : State) : (k.deliver s).shr = match k with
      | .toShr i => setBit s.shr i s.ret.bit
      | _ => s.shr := by
  cases k <;> rfl
@[simp] theorem deliver_seq (k : Sink) (s : State) : (k.deliver s).seq = s.seq := by
  cases k <;> rfl
@[simp] theorem deliver_busy (k : Sink) (s : State) : (k.deliver s).busy = s.busy := by
  cases k <;> rfl
@[simp] theorem deliver_valid (k : Sink) (s : State) : (k.deliver s).valid = s.valid := by
  cases k <;> rfl
@[simp] theorem deliver_kind (k : Sink) (s : State) : (k.deliver s).kind = s.kind := by
  cases k <;> rfl
@[simp] theorem deliver_ports (k : Sink) (s : State) : (k.deliver s).ports = s.ports := by
  cases k <;> rfl
@[simp] theorem deliver_inputs (k : Sink) (s : State) : (k.deliver s).inputs = s.inputs := by
  cases k <;> rfl
@[simp] theorem deliver_ticks (k : Sink) (s : State) : (k.deliver s).ticks = s.ticks := by
  cases k <;> rfl
@[simp] theorem deliver_answers (k : Sink) (s : State) : (k.deliver s).answers = s.answers := by
  cases k <;> rfl
@[simp] theorem deliver_drawn (k : Sink) (s : State) : (k.deliver s).drawn = s.drawn := by
  cases k <;> rfl
@[simp] theorem deliver_ret (k : Sink) (s : State) : (k.deliver s).ret = match k with
      | .toRet => { s.ret with byte := s.shr }
      | .toImg _ => { s.ret with byte := s.shr }
      | _ => s.ret := by
  cases k <;> rfl

end Sys2Proof.Machine
end

