-- ==== Sys2Proof/Laws/Ops.lean ====
section
/-!
SUPPORT. What the shared operations do, said once: bits and bytes, the image, the draws and the host's frames, the
micro-operations through exec, the codec evaluation that ends a step.
-/

namespace Sys2Proof

/-! ### The image as a register file -/

@[simp] theorem RegisterImage.get_set_same (img : RegisterImage) (k : Fin 8) (v : Byte) :
    (img.set k v).get k = v := by
  revert k; intro k; match k with
  | 0 => rfl
  | 1 => rfl
  | 2 => rfl
  | 3 => rfl
  | 4 => rfl
  | 5 => rfl
  | 6 => rfl
  | 7 => rfl

theorem RegisterImage.get_set_other (img : RegisterImage) {j k : Fin 8} (v : Byte) (h : j ≠ k) :
    (img.set k v).get j = img.get j := by
  revert h
  fin_cases j <;> fin_cases k <;> intro h <;> first | rfl | exact absurd rfl h

theorem RegisterImage.ext_get {x y : RegisterImage} (h : ∀ k, x.get k = y.get k) : x = y := by
  cases x; cases y
  have h0 := h 0; have h1 := h 1; have h2 := h 2; have h3 := h 3
  have h4 := h 4; have h5 := h 5; have h6 := h 6; have h7 := h 7
  simp only [RegisterImage.get] at h0 h1 h2 h3 h4 h5 h6 h7
  simp only [h0, h1, h2, h3, h4, h5, h6, h7]

@[simp] theorem RegisterImage.get_ofFn (f : Fin 8 → Byte) (k : Fin 8) : (RegisterImage.ofFn f).get k = f k := by
  fin_cases k <;> rfl

end Sys2Proof

namespace Sys2Proof.Machine

/-! ### Bits of a byte -/

theorem byte_ext {v w : Byte} (h : ∀ i, bitOf v i = bitOf w i) : v = w := by
  apply BitVec.eq_of_getLsbD_eq
  intro i hi
  exact h ⟨i, hi⟩

theorem bitOf_setBit (v : Byte) (i j : Fin 8) (b : Bool) :
    bitOf (setBit v i b) j = if j = i then b else bitOf v j := by
  have hj := j.isLt
  cases b <;>
    fin_cases i <;> fin_cases j <;> simp [bitOf, setBit]

@[simp] theorem bitOf_assemble (f : Fin 8 → Bool) (i : Fin 8) : bitOf (assemble f) i = f i := by
  simp only [assemble, octet, List.foldl_cons, List.foldl_nil]
  have key : ∀ b0 b1 b2 b3 b4 b5 b6 b7 : Bool,
      (∀ g : Fin 8 → Bool, g 0 = b0 → g 1 = b1 → g 2 = b2 → g 3 = b3 → g 4 = b4 → g 5 = b5 → g 6 = b6 → g 7 = b7 →
        ∀ i, bitOf
          (0#8 + (if g 0 then 1#8 <<< (0 : Fin 8).val else 0#8) + (if g 1 then 1#8 <<< (1 : Fin 8).val else 0#8) +
            (if g 2 then 1#8 <<< (2 : Fin 8).val else 0#8) + (if g 3 then 1#8 <<< (3 : Fin 8).val else 0#8) +
            (if g 4 then 1#8 <<< (4 : Fin 8).val else 0#8) + (if g 5 then 1#8 <<< (5 : Fin 8).val else 0#8) +
            (if g 6 then 1#8 <<< (6 : Fin 8).val else 0#8) + (if g 7 then 1#8 <<< (7 : Fin 8).val else 0#8)) i = g i) := by
    intro b0 b1 b2 b3 b4 b5 b6 b7 g h0 h1 h2 h3 h4 h5 h6 h7 i
    simp only [h0, h1, h2, h3, h4, h5, h6, h7]
    fin_cases i <;> simp only [Fin.zero_eta, Fin.mk_one, Fin.reduceFinMk, h0, h1, h2, h3, h4, h5, h6, h7] <;>
      clear h0 h1 h2 h3 h4 h5 h6 h7 g <;> revert b0 b1 b2 b3 b4 b5 b6 b7 <;> decide
  exact key _ _ _ _ _ _ _ _ f rfl rfl rfl rfl rfl rfl rfl rfl i

/-! ### Draws and frames as streams -/

theorem draw_eq_drawAt (s : State) : s.draw = s.drawAt 0 := by
  unfold State.draw State.drawAt
  cases s.answers <;> rfl

@[simp] theorem drawAt_sample (s : State) (j : Nat) : (sample s).drawAt j = s.drawAt (j + 1) := by
  unfold State.drawAt
  simp only [sample_answers, sample_drawn]
  cases s.answers with
  | nil => simp [Nat.add_assoc, Nat.add_comm 1 j]
  | cons b bs => cases h : bs[j]? <;> simp [h, Nat.add_assoc, Nat.add_comm 1 j]

theorem nextFrame_eq_frameAt (s : State) : s.nextFrame = s.frameAt 0 := by
  unfold State.nextFrame State.frameAt
  cases s.inputs <;> rfl

@[simp] theorem frameAt_takeInputs (s : State) (j : Nat) : (takeInputs s).frameAt j = s.frameAt (j + 1) := by
  unfold State.frameAt
  simp only [takeInputs_inputs, takeInputs_ticks]
  cases s.inputs with
  | nil => simp [Nat.add_assoc, Nat.add_comm 1 j]
  | cons p ps => cases h : ps[j]? <;> simp [h, Nat.add_assoc, Nat.add_comm 1 j]

/-- The frames to come depend on the listed inputs and the step count only. -/
theorem frameAt_congr {s t : State} (hi : t.inputs = s.inputs) (ht : t.ticks = s.ticks) (j : Nat) :
    t.frameAt j = s.frameAt j := by
  unfold State.frameAt; rw [hi, ht]

/-- The draws to come depend on the listed answers and the sample count only. -/
theorem drawAt_congr {s t : State} (ha : t.answers = s.answers) (hd : t.drawn = s.drawn) (j : Nat) :
    t.drawAt j = s.drawAt j := by
  unfold State.drawAt; rw [ha, hd]

/-! ### Micro-operations through exec -/

theorem exec_micro (u : MicroOp) (s : State) : exec u.instr s = .next (performMicro u s) := by
  cases u <;> rfl

theorem performMicro_drawAt (u : MicroOp) (s : State) (j : Nat) :
    (performMicro u s).drawAt j = if u.samples then s.drawAt (j + 1) else s.drawAt j := by
  cases u <;> first | rfl | exact drawAt_sample s j

/-! ### The codec evaluation -/

/-- The state after the codec evaluation of a step. -/
def settled (s : State) : State :=
  { s with
    ret := { s.ret with
      enc := bcdEnc s.ports.encD
      dec := bcdDec s.ports.decB
      digHi := digHi s.ports.dpB
      digLo := digLo s.ports.dpB
      calendar := regDec s.img } }

/-- The codec evaluation always answers a next state, and changes returned values only. -/
theorem evalCodecs_eq (s : State) : evalCodecs s = .next (settled s) := rfl

/-- What `act` can do: reset, an idle command, or a run step; the one stop is a position with no micro-operation. -/
theorem act_cases {s t : State} (h : act s = .next t) :
    (s.ports.rst = true ∧ t = resetBlock s) ∨
    (s.ports.rst = false ∧ s.busy = false ∧ exec (commandOf s.ports) s = .next t) ∨
    (s.ports.rst = false ∧ s.busy = true ∧ ∃ x, s.slot = some x ∧ t = advance s.seq.index (x.perform s)) := by
  unfold act at h
  split at h
  · rename_i hr
    exact .inl ⟨hr, by cases h; rfl⟩
  · rename_i hr
    simp only [Bool.not_eq_true] at hr
    split at h
    · rename_i hb
      refine .inr (.inr ⟨hr, hb, ?_⟩)
      unfold runStep at h
      split at h
      · cases h
      · rename_i x hx
        refine ⟨x, hx, ?_⟩
        rw [exec_micro] at h
        cases h
        rfl
    · rename_i hb
      exact .inr (.inl ⟨hr, by simpa using hb, h⟩)

/-- A step is `act` on the taken inputs and then the codec evaluation. -/
theorem stepOnce_cases {s t : State} (h : stepOnce s = .next t) :
    ∃ u, act (takeInputs s) = .next u ∧ t = settled u := by
  unfold stepOnce at h
  cases hact : act (takeInputs s) with
  | next u =>
    rw [hact] at h
    refine ⟨u, rfl, ?_⟩
    have : evalCodecs u = .next t := h
    rw [evalCodecs_eq] at this
    cases this
    rfl
  | fault r => rw [hact] at h; cases h
  | refused r => rw [hact] at h; cases h

/-! ### A command's meaning always answers a next state -/

theorem exec_command_next (p : InputFrame) (s : State) : ∃ t, exec (commandOf p) s = .next t := by
  unfold commandOf
  split
  · by_cases hb : s.busy
    · exact ⟨s, by simp [exec, execRdcyc, hb]⟩
    · exact ⟨acceptCycle false s, by simp [exec, execRdcyc, hb]⟩
  · by_cases hb : s.busy
    · exact ⟨s, by simp [exec, execWrcyc, hb]⟩
    · exact ⟨_, by simp only [exec, execWrcyc, hb]; rfl⟩
  · exact ⟨s, rfl⟩

end Sys2Proof.Machine
end

