-- ==== Sys2Proof/Laws/PerInstr.lean ====
section
/-!
SUPPORT. A statement made per operation: its opid agrees with its row of spec/opcode_table.json (match and mask), its
word has the length of an opid and its operands, and it is well-formed. One lemma per constructor.
-/

namespace Sys2Proof.Laws.TableRow

/-- The `match` of the operation's row of spec/opcode_table.json. -/
def rowMatch : Instr → Byte
  | .nop => 0x00
  | .rdcyc => 0x01
  | .wrcyc _ => 0x02
  | .ceLo => 0x40
  | .ceHi => 0x41
  | .oeLo => 0x42
  | .oeHi => 0x43
  | .weLo => 0x44
  | .weHi => 0x45
  | .dqIn => 0x46
  | .dqOut => 0x47
  | .dqDrv _ => 0x48
  | .dqSmp => 0x4A
  | .wrbit _ => 0x80
  | .rdbit => 0x81
  | .sendb _ => 0x82
  | .recvb => 0x83
  | .wake => 0x84
  | .bcdenc _ => 0xC0
  | .bcddec _ => 0xC1
  | .digpair _ => 0xC2
  | .regenc _ => 0xC3
  | .regdec _ => 0xC4

/-- The `mask` of the operation's row: `DQ_DRV` alone carries its operand in the opid (bit 0). -/
def rowMask : Instr → Byte
  | .nop => 0xFF
  | .rdcyc => 0xFF
  | .wrcyc _ => 0xFF
  | .ceLo => 0xFF
  | .ceHi => 0xFF
  | .oeLo => 0xFF
  | .oeHi => 0xFF
  | .weLo => 0xFF
  | .weHi => 0xFF
  | .dqIn => 0xFF
  | .dqOut => 0xFF
  | .dqDrv _ => 0xFE
  | .dqSmp => 0xFF
  | .wrbit _ => 0xFF
  | .rdbit => 0xFF
  | .sendb _ => 0xFF
  | .recvb => 0xFF
  | .wake => 0xFF
  | .bcdenc _ => 0xFF
  | .bcddec _ => 0xFF
  | .digpair _ => 0xFF
  | .regenc _ => 0xFF
  | .regdec _ => 0xFF

/-- The statement made of every operation. -/
def Statement (i : Instr) : Prop :=
  opid i &&& rowMask i = rowMatch i ∧ 1 ≤ (encode i).length ∧ (encode i).length ≤ 9 ∧ i.wf = true

theorem nop : Statement .nop := by unfold Statement; decide
theorem rdcyc : Statement .rdcyc := by unfold Statement; decide
theorem wrcyc (ct : CalendarTime) : Statement (.wrcyc ct) :=
  ⟨by simp [opid, rowMask, rowMatch], Nat.le_add_left _ _, Nat.le_refl 9, rfl⟩
theorem ceLo : Statement .ceLo := by unfold Statement; decide
theorem ceHi : Statement .ceHi := by unfold Statement; decide
theorem oeLo : Statement .oeLo := by unfold Statement; decide
theorem oeHi : Statement .oeHi := by unfold Statement; decide
theorem weLo : Statement .weLo := by unfold Statement; decide
theorem weHi : Statement .weHi := by unfold Statement; decide
theorem dqIn : Statement .dqIn := by unfold Statement; decide
theorem dqOut : Statement .dqOut := by unfold Statement; decide
theorem dqDrv (b : Bool) : Statement (.dqDrv b) := by cases b <;> (unfold Statement; decide)
theorem dqSmp : Statement .dqSmp := by unfold Statement; decide
theorem wrbit (b : Bool) : Statement (.wrbit b) := by cases b <;> (unfold Statement; decide)
theorem rdbit : Statement .rdbit := by unfold Statement; decide
theorem sendb (v : Byte) : Statement (.sendb v) :=
  ⟨by simp [opid, rowMask, rowMatch], by simp [encode], by simp [encode, operandBytes], rfl⟩
theorem recvb : Statement .recvb := by unfold Statement; decide
theorem wake : Statement .wake := by unfold Statement; decide
theorem bcdenc (d : Byte) : Statement (.bcdenc d) :=
  ⟨by simp [opid, rowMask, rowMatch], by simp [encode], by simp [encode, operandBytes], rfl⟩
theorem bcddec (b : Byte) : Statement (.bcddec b) :=
  ⟨by simp [opid, rowMask, rowMatch], by simp [encode], by simp [encode, operandBytes], rfl⟩
theorem digpair (b : Byte) : Statement (.digpair b) :=
  ⟨by simp [opid, rowMask, rowMatch], by simp [encode], by simp [encode, operandBytes], rfl⟩
theorem regenc (ct : CalendarTime) : Statement (.regenc ct) :=
  ⟨by simp [opid, rowMask, rowMatch], Nat.le_add_left _ _, Nat.le_refl 9, rfl⟩
theorem regdec (img : RegisterImage) : Statement (.regdec img) :=
  ⟨by simp [opid, rowMask, rowMatch], Nat.le_add_left _ _, Nat.le_refl 9, rfl⟩

end Sys2Proof.Laws.TableRow
end

