-- ==== Sys2Proof/Laws/Trace.lean ====
section
/-!
SUPPORT. Traces: performing composes over concatenation, what performing leaves alone, lengths, and which sinks occur.
-/

namespace Sys2Proof.Machine

@[simp] theorem performAll_nil (s : State) : performAll [] s = s := rfl

@[simp] theorem performAll_cons (x : Slot) (xs : List Slot) (s : State) :
    performAll (x :: xs) s = performAll xs (x.perform s) := rfl

theorem performAll_append (xs ys : List Slot) (s : State) :
    performAll (xs ++ ys) s = performAll ys (performAll xs s) := by
  simp [performAll, List.foldl_append]

@[simp] theorem pinsAfter_nil (p : Pins) : pinsAfter [] p = p := rfl

@[simp] theorem pinsAfter_cons (x : Slot) (xs : List Slot) (p : Pins) :
    pinsAfter (x :: xs) p = pinsAfter xs (x.op.onPins p) := rfl

theorem pinsAfter_append (xs ys : List Slot) (p : Pins) :
    pinsAfter (xs ++ ys) p = pinsAfter ys (pinsAfter xs p) := by
  simp [pinsAfter, List.foldl_append]

/-- What performing one entry does to the fields no trace entry is for. -/
theorem perform_frame (x : Slot) (s : State) :
    (x.perform s).seq = s.seq ∧ (x.perform s).busy = s.busy ∧ (x.perform s).valid = s.valid ∧
    (x.perform s).kind = s.kind ∧ (x.perform s).ports = s.ports ∧ (x.perform s).inputs = s.inputs ∧
    (x.perform s).ticks = s.ticks := by
  simp [Slot.perform]

@[simp] theorem perform_pins (x : Slot) (s : State) : (x.perform s).pins = x.op.onPins s.pins := by
  simp [Slot.perform]

/-- Performing a trace leaves the sequencer, the flags and the host's side alone. -/
theorem performAll_frame (xs : List Slot) (s : State) :
    (performAll xs s).seq = s.seq ∧ (performAll xs s).busy = s.busy ∧ (performAll xs s).valid = s.valid ∧
    (performAll xs s).kind = s.kind ∧ (performAll xs s).ports = s.ports ∧ (performAll xs s).inputs = s.inputs ∧
    (performAll xs s).ticks = s.ticks := by
  induction xs generalizing s with
  | nil => simp
  | cons x xs ih =>
    obtain ⟨h1, h2, h3, h4, h5, h6, h7⟩ := ih (x.perform s)
    obtain ⟨g1, g2, g3, g4, g5, g6, g7⟩ := perform_frame x s
    simp [*]

/-- Performing a trace does to the pins what the trace does to the pins. -/
theorem performAll_pins (xs : List Slot) (s : State) : (performAll xs s).pins = pinsAfter xs s.pins := by
  induction xs generalizing s with
  | nil => rfl
  | cons x xs ih => simp [ih]

/-! ### Lengths (R71) -/

@[simp] theorem sendbTrace_length (v : Byte) : (sendbTrace v).length = 35 := rfl

@[simp] theorem recvbTrace_length (k : Sink) : (recvbTrace k).length = 27 := rfl

@[simp] theorem primeTrace_length : primeTrace.length = 6 := rfl

@[simp] theorem wakeTrace_length : wakeTrace.length = 286 := by
  simp [wakeTrace, octet]

@[simp] theorem readTrace_length : readTrace.length = 502 := by
  simp [readTrace, octet]

@[simp] theorem writeTrace_length (img : RegisterImage) : (writeTrace img).length = 566 := by
  simp [writeTrace, octet]

/-- The cycle's trace is one longer than its last index (R16, R212). -/
theorem trace_length (s : State) : s.trace.length = lastIndex s.kind + 1 := by
  unfold State.trace lastIndex
  cases s.kind <;> simp

/-! ### Sinks -/

/-- Every entry of `SENDB` is a pin write. -/
theorem sendbTrace_plain {v : Byte} {x : Slot} (h : x ∈ sendbTrace v) : x.sink = .none ∧ x.op.samples = false := by
  have key : (sendbTrace v).all (fun x => x.sink = .none && !x.op.samples) = true := rfl
  simpa using List.all_eq_true.mp key x h

/-- No entry of a write cycle delivers a value to `SHR` or `IMG` (R61). -/
theorem writeTrace_sink {img : RegisterImage} {x : Slot} (h : x ∈ writeTrace img) : x.sink = .none := by
  unfold writeTrace wakeTrace at h
  simp only [List.mem_append, List.mem_flatMap] at h
  rcases h with (h | ⟨j, _, h⟩) | ⟨k, _, h⟩
  · have key : primeTrace.all (fun x => x.sink = .none) = true := rfl
    simpa using List.all_eq_true.mp key x h
  · exact (sendbTrace_plain h).1
  · exact (sendbTrace_plain h).1

/-- Performing an entry of a cycle's trace leaves that cycle's trace as it was. -/
theorem perform_trace {x : Slot} {s : State} (h : x ∈ s.trace) : (x.perform s).trace = s.trace := by
  unfold State.trace at h ⊢
  cases hk : s.kind with
  | false => simp [(perform_frame x s).2.2.2.1, hk]
  | true =>
    rw [hk] at h
    have hs := writeTrace_sink h
    simp [hk, Slot.perform, hs]

end Sys2Proof.Machine
end

