-- ==== Sys2Proof/Laws/Run.lean ====
section
/-!
SUPPORT. Steps and runs: what a step does in each of its three cases, what several run steps do, and what whole frames do
to the pins.
-/

namespace Sys2Proof.Machine

/-! ### The three cases of a step, as equations -/

/-- A step with `rst` asserted (R270). -/
theorem step_of_reset {s : State} (hr : s.nextFrame.rst = true) :
    step s = .next (settled (resetBlock (takeInputs s))) := by
  simp [step, stepOnce, act, hr, andThen, evalCodecs_eq]

/-- An idle step (R213). -/
theorem step_of_idle {s t : State} (hr : s.nextFrame.rst = false) (hb : s.busy = false)
    (he : exec (commandOf s.nextFrame) (takeInputs s) = .next t) : step s = .next (settled t) := by
  simp [step, stepOnce, act, hr, hb, idleStep, he, andThen, evalCodecs_eq]

/-- A run step (R212). -/
theorem step_of_run {s : State} {n : Nat} {x : Slot} (hr : s.nextFrame.rst = false) (hb : s.busy = true)
    (hs : s.seq = .run n) (hx : s.trace[n]? = some x) :
    step s = .next (settled (advance n (x.perform (takeInputs s)))) := by
  have ht : (takeInputs s).trace = s.trace := rfl
  simp [step, stepOnce, act, hr, hb, runStep, State.slot, hs, ht, hx, exec_micro, andThen, Seq.index,
    evalCodecs_eq, Slot.perform]

/-! ### States that agree on what performing reads and writes -/

/-- The two states agree on what a trace entry reads and writes: the pins, `IMG`, `SHR`, the draws and the returned
bit. -/
def Agree (s t : State) : Prop :=
  t.pins = s.pins ∧ t.img = s.img ∧ t.shr = s.shr ∧ t.answers = s.answers ∧ t.drawn = s.drawn ∧
  t.ret.bit = s.ret.bit

theorem Agree.refl (s : State) : Agree s s := ⟨rfl, rfl, rfl, rfl, rfl, rfl⟩

theorem Agree.trans {s t u : State} (h : Agree s t) (g : Agree t u) : Agree s u := by
  obtain ⟨h1, h2, h3, h4, h5, h6⟩ := h
  obtain ⟨g1, g2, g3, g4, g5, g6⟩ := g
  exact ⟨g1.trans h1, g2.trans h2, g3.trans h3, g4.trans h4, g5.trans h5, g6.trans h6⟩

theorem agree_takeInputs (s : State) : Agree s (takeInputs s) := ⟨rfl, rfl, rfl, rfl, rfl, rfl⟩

theorem agree_settled (s : State) : Agree s (settled s) := ⟨rfl, rfl, rfl, rfl, rfl, rfl⟩

theorem agree_advance (n : Nat) (s : State) : Agree s (advance n s) := by simp [Agree]

/-- Performing an entry keeps agreement. -/
theorem Agree.perform {s t : State} (h : Agree s t) (x : Slot) : Agree (x.perform s) (x.perform t) := by
  obtain ⟨h1, h2, h3, h4, h5, h6⟩ := h
  have hd : t.draw = s.draw := by unfold State.draw; rw [h4, h5]
  obtain ⟨u, k⟩ := x
  cases k <;> cases u <;> simp [Agree, Slot.perform, Sink.deliver, MicroOp.samples, MicroOp.onPins, *]

/-- Performing a trace keeps agreement. -/
theorem Agree.performAll {s t : State} (h : Agree s t) (xs : List Slot) :
    Agree (performAll xs s) (performAll xs t) := by
  induction xs generalizing s t with
  | nil => exact h
  | cons x xs ih => exact ih (h.perform x)

/-! ### Several steps -/

theorem runSteps_zero (s : State) : runSteps 0 s = .next s := rfl

/-- One step, then the rest. -/
theorem runSteps_succ {s t : State} (k : Nat) (h : step s = .next t) : runSteps (k + 1) s = runSteps k t := by
  simp [runSteps, h, andThen]

/-- Some steps, then the rest. -/
theorem runSteps_add {s t : State} (j k : Nat) (h : runSteps j s = .next t) :
    runSteps (j + k) s = runSteps k t := by
  induction j generalizing s with
  | zero => rw [Nat.zero_add]; cases h; rfl
  | succ j ih =>
    rw [Nat.succ_add]
    cases hs : step s with
    | next u =>
      rw [runSteps_succ j hs] at h
      rw [runSteps_succ (j + k) hs]
      exact ih h
    | fault r => simp [runSteps, hs, andThen] at h
    | refused r => simp [runSteps, hs, andThen] at h

/-- `m` run steps that do not complete the cycle perform its next `m` micro-operations (R212, R224). -/
theorem runSteps_running (m : Nat) {s : State} {n : Nat} (hb : s.busy = true) (hs : s.seq = .run n)
    (hn : n + m ≤ lastIndex s.kind) (hr : ∀ j < m, (s.frameAt j).rst = false) :
    ∃ t, runSteps m s = .next t ∧ t.seq = .run (n + m) ∧ t.busy = true ∧ t.valid = s.valid ∧ t.kind = s.kind ∧
      t.trace = s.trace ∧ (∀ j, t.frameAt j = s.frameAt (j + m)) ∧
      Agree (performAll ((s.trace.drop n).take m) s) t := by
  induction m generalizing s n with
  | zero => exact ⟨s, rfl, by simpa using hs, hb, rfl, rfl, rfl, fun _ => rfl, Agree.refl s⟩
  | succ m ih =>
    have hlt : n < s.trace.length := by rw [trace_length]; omega
    have hx : s.trace[n]? = some s.trace[n] := List.getElem?_eq_getElem hlt
    have hmem : s.trace[n] ∈ s.trace := List.getElem_mem hlt
    have hr0 : s.nextFrame.rst = false := by rw [nextFrame_eq_frameAt]; exact hr 0 (by omega)
    have hstep := step_of_run hr0 hb hs hx
    obtain ⟨f1, f2, f3, f4, f5, f6, f7⟩ := perform_frame s.trace[n] (takeInputs s)
    have hne : n ≠ lastIndex s.kind := by omega
    generalize hu : settled (advance n (s.trace[n].perform (takeInputs s))) = u at hstep
    have hk : u.kind = s.kind := by rw [← hu]; simp [settled, f4]
    have hub : u.busy = true := by rw [← hu]; simp [settled, f4, f2, hne, hb]
    have huv : u.valid = s.valid := by rw [← hu]; simp [settled, f4, f3, hne]
    have hus : u.seq = .run (n + 1) := by rw [← hu]; simp [settled, f4, hne]
    have hut : u.trace = s.trace := by
      have h1 : u.trace = (s.trace[n].perform (takeInputs s)).trace := by
        rw [← hu]; unfold State.trace settled; simp only [advance_kind, advance_img]
      rw [h1]; exact perform_trace (s := takeInputs s) hmem
    have huf : ∀ j, u.frameAt j = s.frameAt (j + 1) := by
      intro j
      rw [← frameAt_takeInputs]
      apply frameAt_congr
      · rw [← hu]; simp [settled, f6]
      · rw [← hu]; simp [settled, f7]
    have hagree : Agree (s.trace[n].perform s) u := by
      rw [← hu]
      exact (((agree_takeInputs s).perform _).trans (agree_advance n _)).trans (agree_settled _)
    obtain ⟨t, ht, t1, t2, t3, t4, t5, t6, t7⟩ := ih hub hus (by rw [hk]; omega)
      (fun j hj => by rw [huf]; exact hr (j + 1) (by omega))
    refine ⟨t, by rw [runSteps_succ m hstep]; exact ht, by rw [t1]; congr 1; omega, t2, t3.trans huv, t4.trans hk,
      t5.trans hut, fun j => ?_, ?_⟩
    · rw [t6, huf, Nat.add_assoc]
    · have : (s.trace.drop n).take (m + 1) = s.trace[n] :: (s.trace.drop (n + 1)).take m := by
        rw [List.drop_eq_getElem_cons hlt, List.take_succ_cons]
      rw [this, performAll_cons]
      rw [hut] at t7
      exact (hagree.performAll _).trans t7

/-! ### Frames and the rest state -/

theorem sendbTrace_atRest (v : Byte) {p : Pins} (h : p.AtRest) : (pinsAfter (sendbTrace v) p).AtRest :=
  ⟨rfl, h.2.1, rfl⟩

theorem recvbTrace_atRest (k : Sink) {p : Pins} (h : p.AtRest) : (pinsAfter (recvbTrace k) p).AtRest :=
  ⟨rfl, rfl, h.2.2⟩

theorem primeTrace_atRest {p : Pins} (h : p.AtRest) : (pinsAfter primeTrace p).AtRest := ⟨rfl, rfl, h.2.2⟩

/-- A sequence of frames that each end at rest ends at rest. -/
theorem flatMap_atRest {α : Type} (l : List α) (f : α → List Slot)
    (hf : ∀ a p, Pins.AtRest p → (pinsAfter (f a) p).AtRest) {p : Pins} (h : p.AtRest) :
    (pinsAfter (l.flatMap f) p).AtRest := by
  induction l generalizing p with
  | nil => exact h
  | cons a l ih => rw [List.flatMap_cons, pinsAfter_append]; exact ih (hf a p h)

theorem wakeTrace_atRest {p : Pins} (h : p.AtRest) : (pinsAfter wakeTrace p).AtRest := by
  unfold wakeTrace
  rw [pinsAfter_append]
  exact flatMap_atRest _ _ (fun _ _ => sendbTrace_atRest _) (primeTrace_atRest h)

/-- A whole cycle entered at rest ends at rest (R223). -/
theorem trace_atRest (s : State) {p : Pins} (h : p.AtRest) : (pinsAfter s.trace p).AtRest := by
  unfold State.trace
  split
  · unfold writeTrace
    rw [pinsAfter_append]
    exact flatMap_atRest _ _ (fun _ _ => sendbTrace_atRest _) (wakeTrace_atRest h)
  · unfold readTrace
    rw [pinsAfter_append]
    exact flatMap_atRest _ _ (fun _ _ => recvbTrace_atRest _) (wakeTrace_atRest h)

/-! ### Draws along a trace -/

/-- The draws to come after `m` draws. -/
theorem drawAt_shift {s t : State} (m : Nat) (ha : t.answers = s.answers.drop m) (hd : t.drawn = s.drawn + m)
    (j : Nat) : t.drawAt j = s.drawAt (m + j) := by
  unfold State.drawAt; rw [ha, hd, List.getElem?_drop, Nat.add_assoc]

/-- The next draw after `m` draws. -/
theorem draw_shift {s t : State} (m : Nat) (ha : t.answers = s.answers.drop m) (hd : t.drawn = s.drawn + m) :
    t.draw = s.drawAt m := by rw [draw_eq_drawAt, drawAt_shift m ha hd]; rfl

/-- What performing an entry does to the draws and the sampled bit. -/
theorem perform_draws (x : Slot) (s : State) :
    (x.perform s).answers = (if x.op.samples then s.answers.tail else s.answers) ∧
    (x.perform s).drawn = s.drawn + (if x.op.samples then 1 else 0) ∧
    (x.perform s).ret.bit = if x.op.samples then s.draw else s.ret.bit := by
  obtain ⟨u, k⟩ := x
  cases k <;> cases u <;> simp [Slot.perform, MicroOp.samples, Sink.deliver]

/-- Writing the eight bits of a byte one after the other assembles it. -/
theorem setBit_octet (v : Byte) (f : Fin 8 → Bool) :
    octet.foldl (fun w i => setBit w i (f i)) v = assemble f := by
  apply byte_ext
  intro i
  simp only [octet, List.foldl_cons, List.foldl_nil, bitOf_setBit, bitOf_assemble]
  fin_cases i <;> simp

end Sys2Proof.Machine
end

