-- ==== Sys2Proof/Laws/Watch.lean ====
section
/-!
SUPPORT. What an observer sees: films compose over concatenation, a glimpse that changes and samples nothing is seen by
nobody, sample positions point into the waveform, and a run shows its steps one after the other.
-/

namespace Sys2Proof.Machine

/-! ### Films of traces -/

@[simp] theorem film_nil (p : Pins) : film [] p = [] := rfl

@[simp] theorem film_cons (x : Slot) (xs : List Slot) (p : Pins) :
    film (x :: xs) p = ⟨x.op.onPins p, x.op.samples⟩ :: film xs (x.op.onPins p) := rfl

theorem film_append (xs ys : List Slot) (p : Pins) : film (xs ++ ys) p = film xs p ++ film ys (pinsAfter xs p) := by
  induction xs generalizing p with
  | nil => rfl
  | cons x xs ih => simp [ih]

/-- The levels committed along two traces, one after the other. -/
theorem committed_append (xs ys : List Slot) (p : Pins) :
    committed (xs ++ ys) p = committed xs p ++ committed ys (pinsAfter xs p) := by
  unfold committed
  induction xs generalizing p with
  | nil => rfl
  | cons x xs ih => simp only [List.cons_append, film_cons, filmCommitted, pinsAfter_cons, ih]; split <;> rfl

/-! ### A glimpse that changes nothing and samples nothing -/

theorem changes_still (p : Pins) (gs : List Glimpse) : changes p (⟨p, false⟩ :: gs) = changes p gs := by
  simp [changes]

theorem positionsFrom_still (n : Nat) (p : Pins) (gs : List Glimpse) :
    positionsFrom n p (⟨p, false⟩ :: gs) = positionsFrom n p gs := by
  simp [positionsFrom]

/-! ### Runs -/

@[simp] theorem observe_zero (s : State) : observe 0 s = [] := rfl

/-- One step, then the rest. -/
theorem observe_succ {s t : State} (k : Nat) (h : step s = .next t) :
    observe (k + 1) s = sight s t :: observe k t := by
  simp [observe, h]

@[simp] theorem runFilm_zero (s : State) : runFilm 0 s = [] := rfl

/-- One step, then the rest. -/
theorem runFilm_succ {s t : State} (k : Nat) (h : step s = .next t) :
    runFilm (k + 1) s = ⟨t.pins, t.drawn != s.drawn⟩ :: runFilm k t := by
  simp [runFilm, observe_succ k h, sight]

end Sys2Proof.Machine
end

