-- ==== Sys2Proof/Machine/Notation.lean ====
section
/-!
DEFINITION. The textual notation of 30_encoding.md R86, for test vectors and for reading a state: micro-operations,
pin vectors, waveforms, traces and operations as text. No operation of the block depends on it.
-/

namespace Sys2Proof.Machine

/-- A level as a binary digit. -/
def bitText (b : Bool) : String := if b then "1" else "0"

/-- A micro-operation by its mnemonic, `DQ_DRV` with its bit (R86). -/
def MicroOp.text : MicroOp → String
  | .ceLo => "CE_LO"
  | .ceHi => "CE_HI"
  | .oeLo => "OE_LO"
  | .oeHi => "OE_HI"
  | .weLo => "WE_LO"
  | .weHi => "WE_HI"
  | .dqIn => "DQ_IN"
  | .dqOut => "DQ_OUT"
  | .dqDrv b => "DQ_DRV" ++ bitText b
  | .dqSmp => "DQ_SMP"

/-- A pin vector as five binary digits `ce_n oe_n we_n dq_dir dq_out` (R7, R86). -/
def Pins.text (p : Pins) : String :=
  bitText p.ceN ++ bitText p.oeN ++ bitText p.weN ++ bitText p.dqDir ++ bitText p.dqOut

/-- Texts separated by blanks. -/
def blankSeparated : List String → String
  | [] => ""
  | [x] => x
  | x :: y :: ys => x ++ " " ++ blankSeparated (y :: ys)

/-- A pin waveform: a blank-separated list of pin vectors (R86). -/
def waveformText (ps : List Pins) : String := blankSeparated (ps.map Pins.text)

/-- The texts of a trace with the bits answered to its samples, `DQ_SMP=0` or `DQ_SMP=1` (R86). A sample with no
listed answer is written `DQ_SMP`. -/
def traceTexts : List Slot → List Bool → List String
  | [], _ => []
  | x :: xs, draws =>
    if x.op.samples then
      match draws with
      | b :: bs => ("DQ_SMP=" ++ bitText b) :: traceTexts xs bs
      | [] => x.op.text :: traceTexts xs []
    else x.op.text :: traceTexts xs draws

/-- A trace: a blank-separated list of micro-operations, read left to right (R86). -/
def traceText (xs : List Slot) (draws : List Bool) : String := blankSeparated (traceTexts xs draws)

/-- A hexadecimal digit. -/
def hexDigit (n : Nat) : String :=
  String.singleton (Char.ofNat (if n < 10 then 48 + n else 55 + n))

/-- A byte in hexadecimal, as in `0xC5`. -/
def byteText (v : Byte) : String := "0x" ++ hexDigit (v.toNat / 16) ++ hexDigit (v.toNat % 16)

/-- A number in decimal (three digits at most, which every byte fits). -/
def decText (v : Byte) : String :=
  let n := v.toNat
  (if 100 ≤ n then hexDigit (n / 100) else "") ++ (if 10 ≤ n then hexDigit (n / 10 % 10) else "") ++ hexDigit (n % 10)

/-- A CalendarTime as R86 writes it, the seven fields a write cycle sends, between braces. -/
def calendarText (ct : CalendarTime) : String :=
  String.singleton (Char.ofNat 0x7B) ++ "year=" ++ decText ct.year ++ ", month=" ++ decText ct.month ++
  ", date=" ++ decText ct.date ++ ", dow=" ++ decText ct.dow ++ ", hour=" ++ decText ct.hour ++
  ", minute=" ++ decText ct.minute ++ ", second=" ++ decText ct.second ++ String.singleton (Char.ofNat 0x7D)

/-- A RegisterImage as a list of bytes in index order. -/
def imageText (img : RegisterImage) : String :=
  "[" ++ byteText img.b0 ++ "," ++ byteText img.b1 ++ "," ++ byteText img.b2 ++ "," ++ byteText img.b3 ++ "," ++
  byteText img.b4 ++ "," ++ byteText img.b5 ++ "," ++ byteText img.b6 ++ "," ++ byteText img.b7 ++ "]"

/-- An operation as text (R86): a command or micro-operation by its mnemonic, a procedure or function as
`NAME(arg)`. -/
def instrText : Instr → String
  | .nop => "NOP"
  | .rdcyc => "RDCYC"
  | .wrcyc ct => "WRCYC " ++ calendarText ct
  | .ceLo => "CE_LO"
  | .ceHi => "CE_HI"
  | .oeLo => "OE_LO"
  | .oeHi => "OE_HI"
  | .weLo => "WE_LO"
  | .weHi => "WE_HI"
  | .dqIn => "DQ_IN"
  | .dqOut => "DQ_OUT"
  | .dqDrv b => "DQ_DRV" ++ bitText b
  | .dqSmp => "DQ_SMP"
  | .wrbit b => "WRBIT(" ++ bitText b ++ ")"
  | .rdbit => "RDBIT()"
  | .sendb v => "SENDB(" ++ byteText v ++ ")"
  | .recvb => "RECVB()"
  | .wake => "WAKE()"
  | .bcdenc d => "BCDENC(" ++ byteText d ++ ")"
  | .bcddec b => "BCDDEC(" ++ byteText b ++ ")"
  | .digpair b => "DIGPAIR(" ++ byteText b ++ ")"
  | .regenc ct => "REGENC(" ++ calendarText ct ++ ")"
  | .regdec img => "REGDEC(" ++ imageText img ++ ")"

end Sys2Proof.Machine
end

