-- ==== Sys2Proof/Tests/Slice0.lean ====
section
/-!
SUPPORT. Tests on the spec's own examples (95_test_vectors.md and the examples in the rules), the well-formedness smoke
tests, and the witnesses that the hypotheses of the statements can be met.
-/

namespace Sys2Proof.Machine.Tests

/-! ### Helpers -/

/-- A pin vector from its five digits `ce_n oe_n we_n dq_dir dq_out`, written as a decimal number. -/
def pv (n : Nat) : Pins :=
  { ceN := n / 10000 % 10 == 1, oeN := n / 1000 % 10 == 1, weN := n / 100 % 10 == 1,
    dqDir := n / 10 % 10 == 1, dqOut := n % 10 == 1 }

/-- The reset state with other pins and listed answers. -/
def st (n : Nat) (answers : List Bool) : State := { State.reset with pins := pv n, answers := answers }

/-- What a test looks at of an outcome. -/
def seen {α : Type} (f : State → α) (o : Host.Outcome State Fault Refusal) : Option α :=
  match o with
  | .next t => some (f t)
  | .fault _ => none
  | .refused _ => none

/-- The pins after an operation from a pin vector. -/
def pinsOf (i : Instr) (n : Nat) : Option Pins := seen (fun t => t.pins) (exec i (st n []))

/-- An idle state whose host presents `cmd` and `ct_in` in the next step. -/
def idleAt (cmd : BitVec 2) (w : BitVec 64) : State :=
  State.reset.placeIdle { quietFrame with cmd := cmd, ctIn := w }

/-- A state about to perform index `n` of a cycle. -/
def runAt (k : Bool) (img : RegisterImage) (n : Nat) : State := State.reset.placeRun k img n

/-- The image of DOC0's example E9. -/
def imgE9 : RegisterImage := ⟨0x00, 0x00, 0x05, 0x09, 0x03, 0x31, 0x12, 0x25⟩

/-- The image of DOC0's example E8. -/
def imgE8 : RegisterImage := ⟨0x00, 0x27, 0x31, 0x15, 0x07, 0x19, 0x02, 0x20⟩

/-- A byte's bits in wire order, from a number written with the first bit on the left. -/
def bits (l : List Nat) : List Bool := l.map fun b => b == 1

/-! ### Well-formedness of data: an ill-formed term for each check, and that the block runs on it all the same -/

theorem test_validBcd_refuses_high : validBcd 0xA0 = false := by decide
theorem test_validBcd_refuses_low : validBcd 0x1A = false := by decide
theorem test_validBcd_accepts : validBcd 0x99 = true := by decide
theorem test_image_refuses_bad_byte : ({ imgE8 with b3 := 0xB1 } : RegisterImage).validBcd = false := by decide
theorem test_image_accepts : imgE8.validBcd = true := by decide
theorem test_documented_refuses_month_13 : (⟨0, 0, 0, 0, 1, 1, 13, 0⟩ : CalendarTime).documented = false := by decide
theorem test_documented_refuses_month_0 : (⟨0, 0, 0, 0, 1, 1, 0, 0⟩ : CalendarTime).documented = false := by decide
theorem test_documented_refuses_subsec : (⟨100, 0, 0, 0, 1, 1, 1, 0⟩ : CalendarTime).documented = false := by decide
theorem test_documented_refuses_second : (⟨0, 60, 0, 0, 1, 1, 1, 0⟩ : CalendarTime).documented = false := by decide
theorem test_documented_refuses_minute : (⟨0, 0, 60, 0, 1, 1, 1, 0⟩ : CalendarTime).documented = false := by decide
theorem test_documented_refuses_hour : (⟨0, 0, 0, 24, 1, 1, 1, 0⟩ : CalendarTime).documented = false := by decide
theorem test_documented_refuses_dow : (⟨0, 0, 0, 0, 8, 1, 1, 0⟩ : CalendarTime).documented = false := by decide
theorem test_documented_refuses_date : (⟨0, 0, 0, 0, 1, 32, 1, 0⟩ : CalendarTime).documented = false := by decide
theorem test_documented_refuses_year : (⟨0, 0, 0, 0, 1, 1, 1, 100⟩ : CalendarTime).documented = false := by decide
theorem test_documented_accepts : (⟨99, 59, 59, 23, 7, 31, 12, 99⟩ : CalendarTime).documented = true := by decide
theorem test_every_operation_wf : Instr.wf (.wrcyc ⟨0, 0, 0, 0, 1, 1, 13, 0⟩) = true := by decide

/-! ### Decoding: words written out from R80 -/

theorem test_decode_commands :
    decode [0b00000000] = .ok (.nop, []) ∧ decode [0b00000001] = .ok (.rdcyc, []) ∧
    decode [0b00000010, 0, 0, 5, 9, 3, 31, 12, 25] = .ok (.wrcyc ⟨0, 0, 5, 9, 3, 31, 12, 25⟩, []) := by decide

theorem test_decode_micro_operations :
    ([0b01000000, 0b01000001, 0b01000010, 0b01000011, 0b01000100, 0b01000101, 0b01000110, 0b01000111, 0b01001000,
        0b01001001, 0b01001010] : List Byte).map (fun w => decode [w]) =
      ([.ceLo, .ceHi, .oeLo, .oeHi, .weLo, .weHi, .dqIn, .dqOut, .dqDrv false, .dqDrv true, .dqSmp] : List Instr).map
        (fun i => .ok (i, [])) := by decide

theorem test_decode_procedures :
    decode [0b10000000, 1] = .ok (.wrbit true, []) ∧ decode [0b10000000, 0] = .ok (.wrbit false, []) ∧
    decode [0b10000001] = .ok (.rdbit, []) ∧ decode [0b10000010, 0xC5] = .ok (.sendb 0xC5, []) ∧
    decode [0b10000011] = .ok (.recvb, []) ∧ decode [0b10000100] = .ok (.wake, []) := by decide

theorem test_decode_functions :
    decode [0b11000000, 27] = .ok (.bcdenc 27, []) ∧ decode [0b11000001, 0x27] = .ok (.bcddec 0x27, []) ∧
    decode [0b11000010, 0x07] = .ok (.digpair 0x07, []) ∧
    decode [0b11000011, 0, 0, 5, 9, 3, 31, 12, 25] = .ok (.regenc ⟨0, 0, 5, 9, 3, 31, 12, 25⟩, []) ∧
    decode [0b11000100, 0x00, 0x27, 0x31, 0x15, 0x07, 0x19, 0x02, 0x20] = .ok (.regdec imgE8, []) := by decide

theorem test_decode_refuses_by_name :
    decode [] = .error .noBytes ∧ decode [0x03] = .error (.invalidOpid 0x03) ∧
    decode [0x4B] = .error (.invalidOpid 0x4B) ∧ decode [0xC5] = .error (.invalidOpid 0xC5) ∧
    decode [0x82] = .error .shortOperand ∧ decode [0x80, 2] = .error (.operandBits 2) := by decide

theorem test_decode_table_word :
    decodeTableWord 8 0x48 = some (.dqDrv false) ∧ decodeTableWord 8 0x49 = some (.dqDrv true) ∧
    decodeTableWord 8 0x82 = some (.sendb 0) ∧ decodeTableWord 8 0x03 = none ∧
    decodeTableWord 16 0xC582 = some (.sendb 0xC5) := by decide

/-! ### Micro-operations, WRBIT, RDBIT (95_test_vectors.md 2.2) -/

theorem test_micro_operations :
    pinsOf .ceLo 11100 = some (pv 01100) ∧ pinsOf .ceHi 01100 = some (pv 11100) ∧
    pinsOf .oeLo 01100 = some (pv 00100) ∧ pinsOf .oeHi 00100 = some (pv 01100) ∧
    pinsOf .weLo 01111 = some (pv 01011) ∧ pinsOf .weHi 01011 = some (pv 01111) ∧
    pinsOf .dqIn 11110 = some (pv 11100) ∧ pinsOf .dqOut 01101 = some (pv 01111) ∧
    pinsOf (.dqDrv true) 01110 = some (pv 01111) ∧ pinsOf (.dqDrv false) 01111 = some (pv 01110) ∧
    pinsOf (.dqDrv true) 01100 = some (pv 01101) := by decide

theorem test_redundant_writes :
    pinsOf .dqIn 11100 = some (pv 11100) ∧ pinsOf .dqOut 01110 = some (pv 01110) ∧
    pinsOf (.dqDrv true) 01111 = some (pv 01111) := by decide

theorem test_dqSmp_returns_the_draw :
    seen (fun t => (t.ret.bit, t.pins, t.drawn)) (exec .dqSmp (st 00100 [true])) = some (true, pv 00100, 1) := by
  decide

theorem test_wrbit_waveform :
    waveform (wrbitTrace true) (pv 01100) = [pv 01100, pv 01110, pv 01111, pv 01011, pv 01111] ∧
    waveform (wrbitTrace false) (pv 01101) = [pv 01101, pv 01111, pv 01110, pv 01010, pv 01110] := by decide

theorem test_wrbit_exec : pinsOf (.wrbit false) 01111 = some (pv 01110) := by decide

theorem test_rdbit :
    seen (fun t => (t.ret.bit, t.pins)) (exec .rdbit (st 01101 [true])) = some (true, pv 01101) ∧
    samplePins (rdbitTrace .none) (pv 01101) = [pv 00101] ∧ samplePositions (rdbitTrace .none) (pv 01101) = [1] := by
  decide

/-- R134: with chip-enable deasserted the chip takes nothing; with it asserted it takes the bit (2.2). -/
theorem test_wrbit_committed :
    committed (wrbitTrace true) (pv 11110) = [] ∧ committed (wrbitTrace true) (pv 01110) = [some true] := by decide

/-! ### SENDB, RECVB, WAKE (2.3, 2.4, R152, R157, R174) -/

/-- The codes of a trace (the compact notation of 95_test_vectors.md). -/
def codes (xs : List Slot) : List Nat := xs.map fun x => x.op.code.toNat

theorem test_sendb_trace :
    codes (sendbTrace 0xC5) =
      [0, 7, 7, 9, 4, 5, 7, 8, 4, 5, 7, 9, 4, 5, 7, 8, 4, 5, 7, 8, 4, 5, 7, 8, 4, 5, 7, 9, 4, 5, 7, 9, 4, 5, 1] := by
  decide

theorem test_sendb_waveform :
    waveform (sendbTrace 0xC5) (pv 11100) =
      [11100, 01100, 01110, 01111, 01011, 01111, 01110, 01010, 01110, 01111, 01011, 01111, 01110, 01010, 01110,
        01010, 01110, 01010, 01110, 01111, 01011, 01111, 01011, 01111, 11111].map pv := by decide

theorem test_recvb_trace :
    codes (recvbTrace .toRet) =
      [6, 0, 2, 10, 3, 2, 10, 3, 2, 10, 3, 2, 10, 3, 2, 10, 3, 2, 10, 3, 2, 10, 3, 2, 10, 3, 1] := by decide

theorem test_recvb_value :
    seen (fun t => (t.ret.byte, t.shr, t.pins)) (exec .recvb (st 11110 (bits [1, 0, 1, 0, 0, 0, 1, 1]))) =
      some (0xC5, 0xC5, pv 11100) := by decide

/-- R157: the first sample stands at the fourth vector of the waveform written there, the others every second one. -/
theorem test_recvb_positions :
    samplePositions (recvbTrace .toRet) (pv 11110) = [3, 5, 7, 9, 11, 13, 15, 17] ∧
    (waveform (recvbTrace .toRet) (pv 11110)).take 4 = [11110, 11100, 01100, 00100].map pv := by decide

set_option maxRecDepth 4000 in
theorem test_wake_committed :
    (committed wakeTrace (pv 11100)).take 32 = (bits
      [1, 0, 1, 0, 0, 0, 1, 1, 0, 1, 0, 1, 1, 1, 0, 0, 1, 1, 0, 0, 0, 1, 0, 1, 0, 0, 1, 1, 1, 0, 1, 0]).map some := by
  decide

theorem test_wake_prime_frame : codes primeTrace = [0, 6, 2, 10, 3, 1] := by decide

/-! ### The codecs (2.1, 2.5) -/

theorem test_bcdenc : [99, 100, 127, 159, 160, 199, 255].map bcdEnc = [0x99, 0xA0, 0xC7, 0xF9, 0x00, 0x39, 0x95] := by
  decide

theorem test_bcddec : [0x59, 0x0F, 0x1A, 0x9A, 0xA5, 0xC5, 0xFF].map bcdDec = [59, 15, 20, 100, 105, 125, 165] := by
  decide

theorem test_digpair :
    seen (fun t => (t.ret.digHi, t.ret.digLo)) (exec (.digpair 0xC5) State.reset) = some (0x3C, 0x35) := by decide

theorem test_regenc_drops_subsec_and_truncates :
    regEnc (CalendarTime.ofPort 0x190C1F0309050063) = imgE9 ∧
    (regEnc (CalendarTime.ofPort 0xFFFFFFFFFFFFFFFF)).toPort = 0x9595959595959500 := by decide

theorem test_regenc_out_of_range :
    (regEnc (CalendarTime.ofPort 0x640D0000183C3C00)).toPort = 0xA013000024606000 ∧
    (regEnc (CalendarTime.ofPort 0x500A090A149FA000)).toPort = 0x8010091020F90000 := by decide

theorem test_regdec_example : regDec imgE8 = ⟨0, 27, 31, 15, 7, 19, 2, 20⟩ := by decide

theorem test_regdec_masks_byte_4_only :
    (regDec ⟨0x45, 0x00, 0x00, 0x92, 0xF1, 0x1A, 0x0C, 0xA0⟩).toPort = 0x640C14015C00002D := by decide

/-! ### Commands and steps (2.6, section 3) -/

theorem test_nop_step : seen (fun t => (t.pins, t.busy, t.valid, t.seq)) (step (idleAt 3 0)) =
    some (pv 11100, false, false, Seq.idle) := by decide

theorem test_rdcyc_step : seen (fun t => (t.pins, t.busy, t.valid, t.kind, t.seq)) (step (idleAt 1 0)) =
    some (pv 11100, true, false, false, Seq.run 0) := by decide

theorem test_wrcyc_step : seen (fun t => (t.img, t.busy, t.kind, t.seq)) (step (idleAt 2 0x190C1F0309050063)) =
    some (imgE9, true, true, Seq.run 0) := by decide

set_option maxRecDepth 8000 in
theorem test_index_table_read :
    [0, 1, 3, 5, 6, 7, 9, 10, 40, 41, 285, 286, 287, 288, 289, 312, 313, 320, 321, 500, 501, 502].map
        (fun n => readTrace[n]?.map fun x => x.op) =
      [some .ceLo, some .dqIn, some .dqSmp, some .ceHi, some .ceLo, some .dqOut, some (.dqDrv true), some .weLo,
        some .ceHi, some .ceLo, some .ceHi, some .dqIn, some .ceLo, some .oeLo, some .dqSmp, some .ceHi, some .dqIn,
        some .oeHi, some .oeLo, some .oeHi, some .ceHi, none] := by decide

set_option maxRecDepth 8000 in
theorem test_index_table_write :
    [286, 287, 289, 312, 313, 320, 321, 500, 501, 502, 564, 565, 566].map
        (fun n => (writeTrace imgE9)[n]?.map fun x => x.op) =
      [some .ceLo, some .dqOut, some (.dqDrv false), some .dqOut, some (.dqDrv false), some .ceHi, some .ceLo,
        some .weLo, some .weHi, some .dqOut, some .weHi, some .ceHi, none] := by decide

set_option maxRecDepth 8000 in
theorem test_last_read_step_completes :
    seen (fun t => (t.pins, t.busy, t.valid, t.seq, t.img.b7)) (step { runAt false imgE8 501 with shr := 0x20 }) =
      some (pv 11100, false, true, Seq.idle, 0x20) := by decide

/-- P5: at index 99 of a cycle `DQ_DRV1` is performed, and `rst` in the next step wins. -/
def resetNext (s : State) : State :=
  { s with inputs := [{ quietFrame with rst := true, cmd := 1 }] }

set_option maxRecDepth 8000 in
theorem test_reset_in_mid_cycle :
    (runAt false imgE8 100).pins = pv 01111 ∧
    seen (fun t => (t.pins, t.busy, t.valid, t.kind, t.seq)) (step (resetNext (runAt false imgE8 100))) =
      some (pv 11100, false, false, false, Seq.idle) := by decide

set_option maxRecDepth 8000 in
theorem test_busy_ignores_command :
    seen (fun t => (t.kind, t.seq, t.img)) (step { runAt false imgE8 5 with inputs := [{ quietFrame with cmd := 2 }] }) =
      some (false, Seq.run 6, imgE8) := by decide

/-- What an observer sees of the run step at the sample of the prime frame: no pin moves, the line is sampled, no output. -/
theorem test_observe_sample :
    (observe 1 { runAt false imgE8 3 with answers := [true] }).map (fun x => (x.glimpse, x.outputs)) =
      [(⟨pv 00100, true⟩, none)] := by decide

/-- What an observer sees of the write of `we_n` at index 10: the chip takes the first bit of the wake code, a 1. -/
theorem test_observe_commit : runCommitted 1 (runAt false imgE8 10) = [some true] := by decide

theorem test_codec_ports_in_idle_step :
    seen (fun t => (t.ret.enc, t.encB)) (step (State.reset.placeIdle { quietFrame with encD := 255 })) =
      some (0x95, 0x95) := by decide

theorem test_readCalendar_needs_valid : State.reset.readCalendar = none ∧
    ({ State.reset with valid := true, img := imgE8 } : State).readCalendar =
      some ⟨0, 27, 31, 15, 7, 19, 2, 20⟩ := by decide

theorem test_notation :
    Pins.text (pv 01101) = "01101" ∧ instrText (.sendb 0xC5) = "SENDB(0xC5)" ∧
    traceText (rdbitTrace .none) [true] = "OE_LO DQ_SMP=1 OE_HI" := by decide

/-! ### Witnesses: the hypotheses of each statement are met, each clause at the edges of its range -/

/-- A quiet host for `k` steps after a first frame. -/
def hostFor (p : InputFrame) (k : Nat) (s : State) : State := { s with inputs := p :: List.replicate k quietFrame }

theorem hostFor_frame_zero (p : InputFrame) (k : Nat) (s : State) : (hostFor p k s).frameAt 0 = p := rfl

theorem hostFor_frame (p : InputFrame) (k : Nat) (s : State) (j : Nat) (h : 1 ≤ j) (hk : j ≤ k) :
    (hostFor p k s).frameAt j = quietFrame := by
  obtain ⟨j, rfl⟩ : ∃ i, j = i + 1 := ⟨j - 1, by omega⟩
  simp [State.frameAt, hostFor, show j < k by omega]

theorem runAt_inv (k : Bool) (img : RegisterImage) (n : Nat) (h : n ≤ lastIndex k) : (runAt k img n).Inv :=
  ⟨rfl, rfl, h, false, false, rfl⟩

theorem idleAt_inv (cmd : BitVec 2) (w : BitVec 64) : (idleAt cmd w).Inv := ⟨rfl, rfl, rfl, rfl⟩

/-- Any state, with `rst` asserted in its next step. -/
theorem resetNext_rst (s : State) : (resetNext s).nextFrame.rst = true := rfl

theorem witness_DecodeAfterEncode : (Instr.wrcyc ⟨255, 255, 255, 255, 255, 255, 255, 255⟩).wf = true ∧
    Instr.nop.wf = true := ⟨rfl, rfl⟩

theorem witness_EncodeAfterDecode :
    decode [0x82, 0xFF, 0x03] = .ok (.sendb 0xFF, [0x03]) ∧ decode [0x00] = .ok (.nop, []) := by decide

theorem witness_UnlistedCodesAreInvalid :
    (∀ op ∈ ([0x03, 0x3F, 0x4B, 0x7F, 0x85, 0xBF, 0xC5, 0xFF] : List Byte),
      op.toNat ∉ [0x00, 0x01, 0x02, 0x40, 0x41, 0x42, 0x43, 0x44, 0x45, 0x46, 0x47, 0x48, 0x49, 0x4A,
        0x80, 0x81, 0x82, 0x83, 0x84, 0xC0, 0xC1, 0xC2, 0xC3, 0xC4]) ∧
    (∀ u ∈ ([11, 15] : List (BitVec 4)), 0b1011 ≤ u.toNat) ∧
    (runAt false imgE8 3).slot = some (.plain .dqSmp) := by decide

theorem witness_MicroOperationCodes :
    MicroOp.ceLo.code.toNat = 0 ∧ (MicroOp.dqDrv true).code.toNat = 0b1001 ∧ MicroOp.dqSmp.code = 0b1010 := by decide

theorem witness_StepRunsFetchedOperation :
    (idleAt 2 0).nextFrame.rst = false ∧ (idleAt 2 0).busy = false ∧
    (runAt false imgE8 3).nextFrame.rst = false ∧ (runAt false imgE8 3).busy = true ∧
    (runAt false imgE8 3).seq = .run 3 ∧ (runAt false imgE8 3).trace[3]? = some (.plain .dqSmp) := by decide

theorem witness_CommandCodesDecode :
    [0, 1, 2, 3].map (fun c => ({ quietFrame with cmd := c } : InputFrame).cmd) = [0b00, 0b01, 0b10, 0b11] := rfl

theorem witness_PlacedRowsRunNext :
    decodeTableWord 8 0x82 = some (.sendb 0) ∧ procedureTrace (.sendb 0xC5) = some (sendbTrace 0xC5) ∧
    Instr.wrcyc ⟨0, 0, 5, 9, 3, 31, 12, 25⟩ ∈ [Instr.nop, .rdcyc, .wrcyc ⟨0, 0, 5, 9, 3, 31, 12, 25⟩] := by decide

theorem witness_IdleStepAcceptance_clause_one :
    (runAt false imgE8 0).busy = true ∧ ({ quietFrame with cmd := 3 } : InputFrame).cmd ≠ 0b10 ∧
    (∃ t, step { runAt false imgE8 0 with inputs := [{ quietFrame with cmd := 2 }] } = .next t) ∧
    ∃ t, step { State.reset with inputs := [{ quietFrame with cmd := 3 }] } = .next t :=
  ⟨rfl, by decide, ⟨_, rfl⟩, ⟨_, rfl⟩⟩

theorem witness_IdleStepAcceptance_reset_step :
    let p : InputFrame := { quietFrame with rst := true, cmd := 2 }
    p.rst = true ∧ State.reset.busy = false ∧ ∃ t, step { State.reset with inputs := [p] } = .next t := ⟨rfl, rfl, _, rfl⟩

theorem witness_IdleStepAcceptance_clause_two (cmd : BitVec 2) (w : BitVec 64) :
    (idleAt cmd w).busy = false ∧ (idleAt cmd w).nextFrame.rst = false ∧ (idleAt cmd w).nextFrame.cmd = cmd :=
  ⟨rfl, rfl, rfl⟩

/-- Every index of both cycles: 289, 312, 499, 501 and 565 among them. -/
theorem witness_RunStepEffect (k : Bool) (img : RegisterImage) (n : Nat) (h : n ≤ lastIndex k) :
    (runAt k img n).Inv ∧ (runAt k img n).seq = .run n ∧ (runAt k img n).nextFrame.rst = false ∧
    (runAt k img n).kind = k := ⟨runAt_inv k img n h, rfl, rfl, rfl⟩

/-- The samples and the image writes of a read cycle stand within its indices; the last one of each is met. -/
theorem witness_RunStepEffect_clauses :
    (∀ k i : Fin 8, 289 + 27 * k.val + 3 * i.val ≤ lastIndex false ∧ 312 + 27 * k.val ≤ lastIndex false) ∧
    289 + 27 * 7 + 3 * 7 = 499 ∧ 312 + 27 * 7 = lastIndex false ∧ lastIndex true = 565 := by decide

set_option maxRecDepth 8000 in
theorem witness_CodecPortsInEveryStep :
    (∃ t, step (idleAt 2 0) = .next t) ∧ (∃ t, step (runAt false imgE8 3) = .next t) ∧
    ∃ t, step (resetNext (runAt false imgE8 3)) = .next t := ⟨⟨_, rfl⟩, ⟨_, rfl⟩, ⟨_, rfl⟩⟩

theorem witness_SampleTakesOneDraw :
    (st 00100 [true, false]).answers = true :: [false] ∧ (st 00100 []).answers = [] := ⟨rfl, rfl⟩

theorem witness_MicroOperationsFrame (m : MicroOp) : ∃ t, exec m.instr (st 01100 []) = .next t := by
  cases m <;> exact ⟨_, rfl⟩

theorem witness_ProceduresFrame :
    ∀ i ∈ [Instr.wrbit true, .rdbit, .sendb 0xC5, .recvb, .wake],
      ∃ xs t, procedureTrace i = some xs ∧ exec i (st 11100 []) = .next t := by
  intro i h
  simp only [List.mem_cons, List.not_mem_nil, or_false] at h
  obtain rfl | rfl | rfl | rfl | rfl := h <;> exact ⟨_, _, rfl, rfl⟩

theorem witness_ChipEnableOncePerByte : (pv 11110).ceN = true ∧ (pv 11100).ceN = true := by decide

theorem witness_BitOrderNeverReversed :
    (pv 11100).weN = true ∧
    (∀ i : Fin 8, (st 11110 (bits [1, 0, 1, 0, 0, 0, 1, 1])).drawAt i.val = bitOf 0xC5 i) ∧
    (st 11110 (bits [1, 0, 1, 0, 0, 0, 1, 1, 1])).answers.map some =
      committed (sendbTrace 0xC5) (pv 11100) ++ [true].map some := by decide

theorem witness_WrbitWritesOneBit :
    (pv 01111).ceN = false ∧ (pv 01111).weN = true ∧ (pv 11111).ceN = true := by decide

theorem witness_BcdencOnEveryByte :
    (99 : Byte).toNat ≤ 99 ∧ (100 : Byte).toNat ≤ 159 ∧ (159 : Byte).toNat ≤ 159 ∧ 160 ≤ (160 : Byte).toNat ∧
    160 ≤ (255 : Byte).toNat ∧ bcdEnc 159 = bcdEnc 159 := by decide

theorem witness_BcddecOnEveryByte :
    validBcd 0x00 = true ∧ validBcd 0x99 = true ∧ bcdDec 0x99 = bcdDec 0x99 := by decide

theorem witness_BcdInverseLaws :
    (159 : Byte).toNat ≤ 159 ∧ 160 ≤ (160 : Byte).toNat ∧ (0xF9 : Byte).toNat % 16 ≤ 9 ∧
    10 ≤ (0x0A : Byte).toNat % 16 := by decide

theorem witness_DigpairMapsNibbles :
    digHi 0x99 = digHi 0x99 ∧ digLo 0x99 = digLo 0x99 ∧ validBcd 0x99 = true ∧ validBcd 0x00 = true := by decide

theorem witness_RegisterCodecRoundTrips_calendar :
    let ct : CalendarTime := ⟨99, 159, 159, 159, 9, 159, 159, 159⟩
    ct.second.toNat ≤ 159 ∧ ct.minute.toNat ≤ 159 ∧ ct.hour.toNat ≤ 159 ∧ ct.date.toNat ≤ 159 ∧
    ct.month.toNat ≤ 159 ∧ ct.year.toNat ≤ 159 ∧ ct.dow.toNat ≤ 9 ∧
    (⟨0, 59, 59, 23, 7, 31, 12, 99⟩ : CalendarTime).documented = true := by decide

theorem witness_RegisterCodecRoundTrips_image :
    let img : RegisterImage := ⟨0xA9, 0xF9, 0x59, 0x23, 0xF9, 0x19, 0x09, 0x99⟩
    (∀ k, (img.get k).toNat % 16 ≤ 9) ∧ (∀ k, (imgE8.get k).toNat % 16 ≤ 9) ∧ imgE8.b0 = 0 ∧
    imgE8.b4.toNat / 16 = 0 := by decide

theorem witness_OscillatorFlag :
    1 ≤ (1 : Byte).toNat ∧ (7 : Byte).toNat ≤ 7 ∧ (0xF0 : Byte).toNat % 16 = 0 ∧
    [19, 20, 39, 40, 220, 239, 240].map (fun d => oscDis (regEnc ⟨0, 0, 0, 0, d, 1, 1, 0⟩)) =
      [false, true, true, false, true, true, false] := by decide

theorem witness_CodecFunctionsFrame :
    (∃ t, exec (.bcdenc 255) State.reset = .next t) ∧ (∃ t, exec (.bcddec 255) State.reset = .next t) ∧
    (∃ t, exec (.digpair 255) State.reset = .next t) ∧ (∃ t, exec (.regdec imgE8) State.reset = .next t) ∧
    ∃ t, exec (.regenc ⟨0, 0, 5, 9, 3, 31, 12, 25⟩) State.reset = .next t :=
  ⟨⟨_, rfl⟩, ⟨_, rfl⟩, ⟨_, rfl⟩, ⟨_, rfl⟩, ⟨_, rfl⟩⟩

theorem witness_CommandsAccept : State.reset.busy = false ∧ (runAt true imgE9 565).busy = true := ⟨rfl, rfl⟩

theorem witness_CommandsFrame :
    (∃ t, exec (commandOf quietFrame) State.reset = .next t) ∧
    (∃ t, exec (commandOf { quietFrame with cmd := 1 }) State.reset = .next t) ∧
    (∃ t, exec (commandOf { quietFrame with cmd := 2 }) State.reset = .next t) ∧
    (∃ t, exec (commandOf { quietFrame with cmd := 3 }) State.reset = .next t) ∧
    ∃ t, exec (commandOf { quietFrame with cmd := 2 }) (runAt false imgE8 0) = .next t :=
  ⟨⟨_, rfl⟩, ⟨_, rfl⟩, ⟨_, rfl⟩, ⟨_, rfl⟩, ⟨_, rfl⟩⟩

theorem witness_NopHoldsForever :
    let s : State := { State.reset with inputs := [quietFrame, { quietFrame with cmd := 3 }] }
    s.busy = false ∧ ∀ j < 2, (s.frameAt j).rst = false ∧ ((s.frameAt j).cmd = 0b00 ∨ (s.frameAt j).cmd = 0b11) := by
  decide

theorem witness_BusyIgnoresTheHost :
    (runAt false imgE8 0).busy = true ∧ quietFrame.rst = ({ quietFrame with cmd := 2, ctIn := 1 } : InputFrame).rst ∧
    ∃ t, step { runAt false imgE8 0 with inputs := [quietFrame] } = .next t := ⟨rfl, rfl, _, rfl⟩

theorem witness_CommittedStream : (pv 11100).weN = true ∧ (pv 11111).weN = true := by decide

theorem witness_RedundantWritesAreInvisible :
    MicroOp.dqIn.onPins (pinsAfter [.plain .ceLo] (pv 11100)) = pinsAfter [.plain .ceLo] (pv 11100) := by decide

/-- The invariant holds after reset, in an idle state and at every index of both cycles, and a step follows. -/
theorem witness_StepKeepsInvariant :
    ((resetNext State.reset).Inv ∧ ∃ t, step (resetNext State.reset) = .next t) ∧ ((idleAt 2 0).Inv ∧ ∃ t, step (idleAt 2 0) = .next t) ∧
    ((runAt false imgE8 3).Inv ∧ ∃ t, step (runAt false imgE8 3) = .next t) :=
  ⟨⟨⟨rfl, rfl, rfl, rfl⟩, _, rfl⟩, ⟨idleAt_inv 2 0, _, rfl⟩, ⟨runAt_inv false imgE8 3 (by decide), _, rfl⟩⟩

theorem witness_AlwaysANextState : State.reset.Inv ∧ (runAt false imgE8 501).Inv ∧ (runAt true imgE9 565).Inv :=
  ⟨⟨rfl, rfl, rfl, rfl⟩, runAt_inv _ _ _ (by decide), runAt_inv _ _ _ (by decide)⟩

set_option maxRecDepth 8000 in
theorem witness_PinInvariants :
    (∃ t, step (runAt false imgE8 499) = .next t) ∧ (runAt false imgE8 499).Inv ∧ (runAt false imgE8 499).seq = .run 499 ∧
    (runAt false imgE8 499).trace[499]? = some ⟨.dqSmp, .toShr 7⟩ ∧ (runAt true imgE9 10).Inv ∧
    (runAt true imgE9 10).trace[10]? = some (.plain .weLo) ∧ (idleAt 0 0).Inv ∧ (idleAt 0 0).busy = false :=
  ⟨⟨_, rfl⟩, runAt_inv _ _ _ (by decide), rfl, by decide, runAt_inv _ _ _ (by decide), by decide, idleAt_inv 0 0, rfl⟩

set_option maxRecDepth 8000 in
theorem witness_SequencerIssueConditions :
    (∀ n ≤ 501, (runAt false imgE8 n).Inv ∧ (runAt false imgE8 n).seq = .run n) ∧
    (runAt false imgE8 0).trace[0]? = some (.plain .ceLo) ∧ (runAt false imgE8 2).trace[2]? = some (.plain .oeLo) ∧
    (runAt false imgE8 9).trace[9]? = some (.plain (.dqDrv true)) ∧
    (runAt false imgE8 10).trace[10]? = some (.plain .weLo) :=
  ⟨fun n h => ⟨runAt_inv _ _ n h, rfl⟩, by decide, by decide, by decide, by decide⟩

theorem witness_NoValueWhileRunning :
    (runAt false imgE8 501).Inv ∧ (runAt false imgE8 501).seq = .run 501 ∧
    (resetNext State.reset).nextFrame.rst = true ∧ ∃ t, step (resetNext State.reset) = .next t :=
  ⟨runAt_inv _ _ _ (by decide), rfl, rfl, _, rfl⟩

set_option maxRecDepth 8000 in
theorem witness_TransfersOfControl :
    ((runAt false imgE8 501).Inv ∧ ∃ t, step (runAt false imgE8 501) = .next t) ∧
    ((runAt true imgE9 565).Inv ∧ ∃ t, step (runAt true imgE9 565) = .next t) ∧
    ((runAt false imgE8 0).Inv ∧ ∃ t, step (runAt false imgE8 0) = .next t) ∧
    ((idleAt 1 0).Inv ∧ (∃ t, step (idleAt 1 0) = .next t) ∧ (idleAt 1 0).seq = .idle) :=
  ⟨⟨runAt_inv _ _ _ (by decide), _, rfl⟩, ⟨runAt_inv _ _ _ (by decide), _, rfl⟩,
    ⟨runAt_inv _ _ _ (by decide), _, rfl⟩, idleAt_inv 1 0, ⟨_, rfl⟩, rfl⟩

set_option maxRecDepth 8000 in
/-- Two machines at the same sample of a read cycle, with other answers, images and `SHR`. -/
theorem witness_DrawsSteerNothing_read :
    let s : State := { runAt false imgE8 3 with answers := [true] }
    let s' : State := { runAt false imgE9 3 with answers := [false], shr := 0xFF }
    SameControl s s' ∧ s'.inputs = s.inputs ∧ s'.ticks = s.ticks ∧ s.kind = false ∧ ∃ t, step s = .next t :=
  ⟨⟨rfl, rfl, rfl, rfl, rfl⟩, rfl, rfl, rfl, _, rfl⟩

set_option maxRecDepth 8000 in
/-- The same in a write cycle, where the image is the same. -/
theorem witness_DrawsSteerNothing_write :
    let s : State := { runAt true imgE9 3 with answers := [true] }
    let s' : State := { runAt true imgE9 3 with answers := [false], shr := 0xFF }
    SameControl s s' ∧ s'.inputs = s.inputs ∧ s'.ticks = s.ticks ∧ s.kind = true ∧ s'.img = s.img ∧
    ∃ t, step s = .next t :=
  ⟨⟨rfl, rfl, rfl, rfl, rfl⟩, rfl, rfl, rfl, rfl, _, rfl⟩

/-- A state with a quiet host for as long as any procedure lasts. -/
def quietly (s : State) : State := hostFor quietFrame 300 s

theorem quietly_frame (s : State) (j : Nat) (h : j ≤ 300) : ((quietly s).frameAt j).rst = false := by
  cases j with
  | zero => rfl
  | succ j => rw [show quietly s = hostFor quietFrame 300 s from rfl, hostFor_frame _ _ _ _ (by omega) h]; rfl

/-- The hypotheses of the statement on procedures, at a state. -/
def BeginsHere (i : Instr) (n : Nat) (s : State) : Prop :=
  ∃ xs u, procedureTrace i = some xs ∧ s.busy = true ∧ s.seq = .run n ∧ n + xs.length ≤ lastIndex s.kind + 1 ∧
    ((s.trace.drop n).take xs.length).map (fun x => x.op) = xs.map (fun x => x.op) ∧
    (∀ j < xs.length, (s.frameAt j).rst = false) ∧ exec i s = .next u

theorem beginsHere_of {i : Instr} {n : Nat} {s : State} (xs : List Slot) (hp : procedureTrace i = some xs)
    (hb : s.busy = true) (hs : s.seq = .run n) (hl : n + xs.length ≤ lastIndex s.kind + 1) (hk : xs.length ≤ 300)
    (ht : ((s.trace.drop n).take xs.length).map (fun x => x.op) = xs.map (fun x => x.op))
    (hx : ∃ u, exec i (quietly s) = .next u) : BeginsHere i n (quietly s) := by
  obtain ⟨u, hu⟩ := hx
  exact ⟨xs, u, hp, hb, hs, hl, ht, fun j h => quietly_frame s j (by omega), hu⟩

set_option maxRecDepth 16000 in
theorem witness_SequencerPerformsProcedures_wrbit :
    BeginsHere (.wrbit true) 288 (quietly (State.reset.place (.wrbit true))) :=
  beginsHere_of (wrbitTrace true) rfl rfl rfl (by decide) (by decide) (by decide) ⟨_, rfl⟩

set_option maxRecDepth 16000 in
theorem witness_SequencerPerformsProcedures_rdbit :
    BeginsHere .rdbit 2 (quietly (State.reset.place .rdbit)) :=
  beginsHere_of (rdbitTrace .none) rfl rfl rfl (by decide) (by decide) (by decide) ⟨_, rfl⟩

set_option maxRecDepth 16000 in
theorem witness_SequencerPerformsProcedures_sendb :
    BeginsHere (.sendb 0xC5) 286 (quietly (State.reset.place (.sendb 0xC5))) :=
  beginsHere_of (sendbTrace 0xC5) rfl rfl rfl (by decide) (by decide) (by decide) ⟨_, rfl⟩

set_option maxRecDepth 16000 in
theorem witness_SequencerPerformsProcedures_last_sendb :
    BeginsHere (.sendb 0x25) 531 (quietly (runAt true imgE9 531)) :=
  beginsHere_of (sendbTrace 0x25) rfl rfl rfl (by decide) (by decide) (by decide) ⟨_, rfl⟩

set_option maxRecDepth 16000 in
theorem witness_SequencerPerformsProcedures_recvb :
    BeginsHere .recvb 286 (quietly (State.reset.place .recvb)) :=
  beginsHere_of (recvbTrace .toRet) rfl rfl rfl (by decide) (by decide) (by decide) ⟨_, rfl⟩

set_option maxRecDepth 16000 in
theorem witness_SequencerPerformsProcedures_last_recvb :
    BeginsHere .recvb 475 (quietly (runAt false imgE8 475)) :=
  beginsHere_of (recvbTrace .toRet) rfl rfl rfl (by decide) (by decide) (by decide) ⟨_, rfl⟩

set_option maxRecDepth 16000 in
theorem witness_SequencerPerformsProcedures_wake :
    BeginsHere .wake 0 (quietly (State.reset.place .wake)) :=
  beginsHere_of wakeTrace rfl rfl rfl (by decide) (by decide) (by decide) ⟨_, rfl⟩

theorem witness_ReadCycle :
    let s := hostFor { quietFrame with cmd := 1 } 502 State.reset
    s.busy = false ∧ (s.frameAt 0).rst = false ∧ (s.frameAt 0).cmd = 0b01 ∧
    ∀ j, 1 ≤ j → j ≤ 502 → (s.frameAt j).rst = false :=
  ⟨rfl, rfl, rfl, fun j h k => by rw [hostFor_frame _ _ _ j h k]; rfl⟩

theorem witness_WriteCycle :
    let s := hostFor { quietFrame with cmd := 2, ctIn := 0x190C1F0309050063 } 566 State.reset
    s.busy = false ∧ (s.frameAt 0).rst = false ∧ (s.frameAt 0).cmd = 0b10 ∧
    ∀ j, 1 ≤ j → j ≤ 566 → (s.frameAt j).rst = false :=
  ⟨rfl, rfl, rfl, fun j h k => by rw [hostFor_frame _ _ _ j h k]; rfl⟩

theorem witness_SamplesStandInTheWaveform : (samplePositions (rdbitTrace .none) (pv 01100)).length = 1 := by decide

theorem witness_RunShowsTrace_one_step :
    (resetNext (runAt false imgE8 3)).nextFrame.rst = true ∧ (idleAt 1 0).nextFrame.rst = false ∧
    (idleAt 1 0).busy = false := ⟨rfl, rfl, rfl⟩

/-- The whole cycle, its last index included. -/
theorem witness_RunShowsTrace_run_steps :
    let s := hostFor quietFrame 502 (runAt false imgE8 0)
    s.busy = true ∧ s.seq = .run 0 ∧ 0 + 502 ≤ lastIndex s.kind + 1 ∧ ∀ j < 502, (s.frameAt j).rst = false := by
  refine ⟨rfl, rfl, by decide, fun j h => ?_⟩
  cases j with
  | zero => rfl
  | succ j => rw [hostFor_frame _ _ _ _ (by omega) (by omega)]; rfl

theorem witness_RunShowsTrace_cycles :
    let s := hostFor { quietFrame with cmd := 1 } 502 State.reset
    let t := hostFor { quietFrame with cmd := 2, ctIn := 0x190C1F0309050063 } 566 State.reset
    (s.busy = false ∧ (s.frameAt 0).cmd = 0b01 ∧ ∀ j ≤ 502, (s.frameAt j).rst = false) ∧
    (t.busy = false ∧ (t.frameAt 0).cmd = 0b10 ∧ ∀ j ≤ 566, (t.frameAt j).rst = false) := by
  refine ⟨⟨rfl, rfl, fun j h => ?_⟩, rfl, rfl, fun j h => ?_⟩ <;>
    (cases j with
      | zero => rfl
      | succ j => rw [hostFor_frame _ _ _ _ (by omega) h]; rfl)

theorem witness_ObserverSeesOutputs :
    (∃ t, step (idleAt 1 0) = .next t ∧ t.busy = true) ∧
    (∃ t, step (idleAt 0 0) = .next t ∧ t.busy = false ∧ t.valid = false) ∧
    ∃ t, step (State.reset.place (.regdec imgE8)) = .next t ∧ t.busy = false ∧ t.valid = true :=
  ⟨⟨_, rfl, rfl⟩, ⟨_, rfl, rfl, rfl⟩, ⟨_, rfl, rfl, rfl⟩⟩

end Sys2Proof.Machine.Tests
end

/-! ## Samples stand in the waveform (00_scope.md R6 (b)) -/

namespace Sys2Proof.Machine

/-- The vectors `pre` are those of the waveform before the current vector `p`: every sample position, counted from there,
is the index of the vector the sample is taken in. -/
theorem positionsFrom_map_getElem? (pre : List Pins) (p : Pins) (gs : List Glimpse) :
    (positionsFrom pre.length p gs).map (fun n => (pre ++ p :: changes p gs)[n]?) = (filmSamplePins p gs).map some := by
  induction gs generalizing pre p with
  | nil => rfl
  | cons g gs ih =>
    have later : (positionsFrom (if g.pins = p then pre.length else pre.length + 1) g.pins gs).map
        (fun n => (pre ++ p :: changes p (g :: gs))[n]?) = (filmSamplePins g.pins gs).map some := by
      by_cases hp : g.pins = p
      · simpa [changes, hp] using ih pre p
      · simpa [changes, hp] using ih (pre ++ [p]) g.pins
    by_cases hg : g.sampled = true <;> simp [positionsFrom, filmSamplePins, hg, later]

theorem filmPositions_map_getElem? (p : Pins) (gs : List Glimpse) :
    (filmPositions p gs).map (fun n => (filmWaveform p gs)[n]?) = (filmSamplePins p gs).map some :=
  positionsFrom_map_getElem? [] p gs

/-- R157, the line an input: `DQ_IN` changes no pin, so the first `OE_LO` stands at position 2. -/
theorem samplePositions_recvbTrace_input (k : Sink) (q : Bool) :
    samplePositions (recvbTrace k) ⟨true, true, true, false, q⟩ = [2, 4, 6, 8, 10, 12, 14, 16] := by
  cases q <;> rfl

/-- R157, the line an output: `DQ_IN` takes a position of its own. -/
theorem samplePositions_recvbTrace_output (k : Sink) (q : Bool) :
    samplePositions (recvbTrace k) ⟨true, true, true, true, q⟩ = [3, 5, 7, 9, 11, 13, 15, 17] := by
  cases q <;> rfl

/-- Settles O56, by induction on the film: the first sample position of what is left is the index of the current vector. -/
theorem samplesStandInTheWaveform : Obligations.SamplesStandInTheWaveform :=
  ⟨fun xs p => filmPositions_map_getElem? p (film xs p),
    fun k q => ⟨samplePositions_recvbTrace_input k q, samplePositions_recvbTrace_output k q⟩⟩

/-! ## The idle step as one equation (45_session_driver.md R213) -/

/-- What an idle step makes of the levels `p` before the codec ports settle: acceptance of a read cycle (`cmd` `01`) or of
a write cycle with the image latched (`10`), else nothing. -/
def accepted (p : InputFrame) (s : State) : State :=
  if p.cmd = 0b01 then acceptCycle false s
  else if p.cmd = 0b10 then
    let img := regEnc (CalendarTime.ofPort p.ctIn)
    acceptCycle true { s with img := img, ret := { s.ret with image := img } }
  else s

theorem accepted_of_read {p : InputFrame} (h : p.cmd = 0b01) (s : State) : accepted p s = acceptCycle false s := by
  simp [accepted, h]

theorem accepted_of_write {p : InputFrame} (h : p.cmd = 0b10) (s : State) :
    accepted p s = acceptCycle true
      { s with
        img := regEnc (CalendarTime.ofPort p.ctIn)
        ret := { s.ret with image := regEnc (CalendarTime.ofPort p.ctIn) } } := by
  simp [accepted, h]

@[simp] theorem accepted_pins (p : InputFrame) (s : State) : (accepted p s).pins = s.pins := by
  unfold accepted; split_ifs <;> rfl
@[simp] theorem accepted_drawn (p : InputFrame) (s : State) : (accepted p s).drawn = s.drawn := by
  unfold accepted; split_ifs <;> rfl
@[simp] theorem accepted_ports (p : InputFrame) (s : State) : (accepted p s).ports = s.ports := by
  unfold accepted; split_ifs <;> rfl
@[simp] theorem accepted_inputs (p : InputFrame) (s : State) : (accepted p s).inputs = s.inputs := by
  unfold accepted; split_ifs <;> rfl
@[simp] theorem accepted_ticks (p : InputFrame) (s : State) : (accepted p s).ticks = s.ticks := by
  unfold accepted; split_ifs <;> rfl

/-- The command that the codes on `cmd` name, `00` and `11` alike (R78, R81). -/
theorem commandOf_eq (p : InputFrame) :
    commandOf p = if p.cmd = 0b01 then .rdcyc
      else if p.cmd = 0b10 then .wrcyc (CalendarTime.ofPort p.ctIn) else .nop := by
  unfold commandOf
  split
  next h => simp [show p.cmd = 0b01 from BitVec.eq_of_toNat_eq h]
  next h => simp [show p.cmd = 0b10 from BitVec.eq_of_toNat_eq h]
  next h1 h2 =>
    rw [if_neg fun h => h1 (by rw [h]; rfl), if_neg fun h => h2 (by rw [h]; rfl)]

/-- `exec` of the command that an idle block reads from `cmd`. -/
theorem exec_command_of_idle (p : InputFrame) {s : State} (hb : s.busy = false) :
    exec (commandOf p) s = .next (accepted p s) := by
  rw [commandOf_eq]
  unfold accepted
  split_ifs
  · simp [exec, execRdcyc, hb]
  · simp [exec, execWrcyc, hb]
  · rfl

theorem step_eq_accepted {s : State} (hr : s.nextFrame.rst = false) (hb : s.busy = false) :
    step s = .next (settled (accepted s.nextFrame (takeInputs s))) :=
  step_of_idle hr hb (exec_command_of_idle s.nextFrame hb)

/-! ## What one step shows (00_scope.md R6) -/

@[simp] theorem settled_pins (s : State) : (settled s).pins = s.pins := rfl
@[simp] theorem settled_seq (s : State) : (settled s).seq = s.seq := rfl
@[simp] theorem settled_busy (s : State) : (settled s).busy = s.busy := rfl
@[simp] theorem settled_kind (s : State) : (settled s).kind = s.kind := rfl
@[simp] theorem settled_drawn (s : State) : (settled s).drawn = s.drawn := rfl
@[simp] theorem settled_ports (s : State) : (settled s).ports = s.ports := rfl
@[simp] theorem settled_inputs (s : State) : (settled s).inputs = s.inputs := rfl
@[simp] theorem settled_ticks (s : State) : (settled s).ticks = s.ticks := rfl
@[simp] theorem settled_trace (s : State) : (settled s).trace = s.trace := rfl

/-- In every step the levels of that step stand on the ports (R19). -/
theorem step_ports {s t : State} (h : step s = .next t) : t.ports = s.nextFrame := by
  obtain ⟨u, hu, rfl⟩ := stepOnce_cases h
  obtain ⟨-, rfl⟩ | ⟨-, hb, he⟩ | ⟨-, -, x, -, rfl⟩ := act_cases hu
  · simp
  · rw [exec_command_of_idle _ hb] at he
    cases he
    simp
  · simp [Slot.perform]

/-- A reset step shows the reset pins and no sample (R270). -/
theorem runFilm_one_of_reset {s : State} (hr : s.nextFrame.rst = true) : runFilm 1 s = [⟨Pins.reset, false⟩] := by
  simp [runFilm_succ 0 (step_of_reset hr)]

/-- An idle step, an accepting one included, shows the pins as they were and no sample (R213). -/
theorem runFilm_succ_of_idle (k : Nat) {s : State} (hr : s.nextFrame.rst = false) (hb : s.busy = false) :
    runFilm (k + 1) s = ⟨s.pins, false⟩ :: runFilm k (settled (accepted s.nextFrame (takeInputs s))) := by
  simp [runFilm_succ k (step_eq_accepted hr hb)]

/-- A run step shows the pins after its micro-operation, and whether that samples (R212). -/
theorem runFilm_succ_of_run (k : Nat) {s : State} {n : Nat} {x : Slot} (hr : s.nextFrame.rst = false)
    (hb : s.busy = true) (hs : s.seq = .run n) (hx : s.trace[n]? = some x) :
    runFilm (k + 1) s = ⟨x.op.onPins s.pins, x.op.samples⟩ ::
      runFilm k (settled (advance n (x.perform (takeInputs s)))) := by
  rw [runFilm_succ k (step_of_run hr hb hs hx)]
  cases h : x.op.samples <;> simp [(perform_draws x (takeInputs s)).2.1, h]

/-! ## What a run shows -/

/-- Run steps show the film of the micro-operations they perform, those of the last index included (R212). -/
theorem runFilm_eq_film (m : Nat) {s : State} {n : Nat} (hb : s.busy = true) (hs : s.seq = .run n)
    (hn : n + m ≤ lastIndex s.kind + 1) (hr : ∀ j < m, (s.frameAt j).rst = false) :
    runFilm m s = film ((s.trace.drop n).take m) s.pins := by
  induction m generalizing s n with
  | zero => simp
  | succ m ih =>
    have hlt : n < s.trace.length := by rw [trace_length]; omega
    have hx : s.trace[n]? = some s.trace[n] := List.getElem?_eq_getElem hlt
    have hr0 : s.nextFrame.rst = false := by rw [nextFrame_eq_frameAt]; exact hr 0 (by omega)
    rw [runFilm_succ_of_run m hr0 hb hs hx, List.drop_eq_getElem_cons hlt, List.take_succ_cons, film_cons]
    congr 1
    cases m with
    | zero => simp
    | succ m =>
      obtain ⟨t, ht, tseq, tbusy, -, tkind, ttrace, tframe, -⟩ :=
        runSteps_running 1 hb hs (by omega) fun j hj => hr j (by omega)
      rw [runSteps_succ 0 (step_of_run hr0 hb hs hx), runSteps_zero] at ht
      cases ht
      rw [ih tbusy tseq (by rw [tkind]; omega) fun j hj => by rw [tframe]; exact hr (j + 1) (by omega), ttrace]
      simp

/-- An idle step that accepts a cycle, and the whole of that cycle: one still glimpse, then the film of its trace. -/
theorem runFilm_cycle {s u : State} (hb : s.busy = false) (hu : accepted s.nextFrame (takeInputs s) = u)
    (ubusy : u.busy = true) (useq : u.seq = .run 0) (hr : ∀ j ≤ lastIndex u.kind + 1, (s.frameAt j).rst = false) :
    runFilm (lastIndex u.kind + 1 + 1) s = ⟨s.pins, false⟩ :: film u.trace s.pins := by
  have hr0 : s.nextFrame.rst = false := by rw [nextFrame_eq_frameAt]; exact hr 0 (by omega)
  have hframe : ∀ j, (settled u).frameAt j = s.frameAt (j + 1) := fun j => by
    rw [← frameAt_takeInputs]
    exact frameAt_congr (by simp [← hu]) (by simp [← hu]) j
  have hpins : u.pins = s.pins := by simp [← hu]
  have hfilm := runFilm_eq_film (s := settled u) (lastIndex u.kind + 1) ubusy useq (by simp) fun j hj => by
    rw [hframe]; exact hr (j + 1) (by omega)
  rw [runFilm_succ_of_idle _ hr0 hb, hu, hfilm, settled_trace, settled_pins, hpins, List.drop_zero,
    ← trace_length u, List.take_length]

theorem filmCommitted_still (p : Pins) (gs : List Glimpse) :
    filmCommitted p (⟨p, false⟩ :: gs) = filmCommitted p gs := by
  cases h : p.weN <;> simp [filmCommitted, h]

/-- The still glimpse of the accepting step is seen in none of the three views of the pins. -/
theorem run_shows_of_film {k : Nat} {s : State} {xs : List Slot}
    (h : runFilm k s = ⟨s.pins, false⟩ :: film xs s.pins) :
    runWaveform k s = waveform xs s.pins ∧ runPositions k s = samplePositions xs s.pins ∧
    runCommitted k s = committed xs s.pins := by
  refine ⟨?_, ?_, ?_⟩
  · rw [runWaveform, h, filmWaveform, changes_still]; rfl
  · rw [runPositions, h, filmPositions, positionsFrom_still]; rfl
  · rw [runCommitted, h, filmCommitted_still]; rfl

/-- The film of a whole read cycle (R217, R218). -/
theorem runFilm_readCycle {s : State} (hb : s.busy = false) (hc : (s.frameAt 0).cmd = 0b01)
    (hr : ∀ j ≤ 502, (s.frameAt j).rst = false) : runFilm 503 s = ⟨s.pins, false⟩ :: film readTrace s.pins := by
  rw [← nextFrame_eq_frameAt] at hc
  exact runFilm_cycle hb (accepted_of_read hc _) rfl rfl hr

/-- The film of a whole write cycle: the image it sends is the one latched at acceptance (R220, R221). -/
theorem runFilm_writeCycle {s : State} (hb : s.busy = false) (hc : (s.frameAt 0).cmd = 0b10)
    (hr : ∀ j ≤ 566, (s.frameAt j).rst = false) :
    runFilm 567 s =
      ⟨s.pins, false⟩ :: film (writeTrace (regEnc (CalendarTime.ofPort (s.frameAt 0).ctIn))) s.pins := by
  rw [← nextFrame_eq_frameAt] at hc ⊢
  exact runFilm_cycle hb (accepted_of_write hc _) rfl rfl hr

/-- Settles O57: a cycle's film is its accepting step's still glimpse and then, by induction on the run steps, the film of
its trace. -/
theorem runShowsTrace : Obligations.RunShowsTrace :=
  ⟨fun _ hr => runFilm_one_of_reset hr,
    fun _ hr hb => runFilm_succ_of_idle 0 hr hb,
    fun _ _ m hb hs hn hr => runFilm_eq_film m hb hs hn hr,
    fun _ hb hc hr => run_shows_of_film (runFilm_readCycle hb hc hr),
    fun _ hb hc hr => run_shows_of_film (runFilm_writeCycle hb hc hr)⟩

/-! ## The outputs an observer sees (00_scope.md R6 (c), (d)) -/

theorem outputs_of_busy {s : State} (hb : s.busy = true) : s.outputs = none := by simp [State.outputs, hb]

theorem outputs_of_invalid {s : State} (hb : s.busy = false) (hv : s.valid = false) :
    s.outputs = some { valid := false, kind := s.kind, image := none, ct := none } := by
  simp [State.outputs, hb, hv]

theorem outputs_of_valid {s : State} (hb : s.busy = false) (hv : s.valid = true) :
    s.outputs = some { valid := true, kind := s.kind, image := some s.imgOut, ct := some s.ctOut } := by
  simp [State.outputs, hb, hv]

/-- Settles O58: the outputs case by case, the codec ports from the levels that stand on the ports in every step. -/
theorem observerSeesOutputs : Obligations.ObserverSeesOutputs := by
  intro s t h
  refine ⟨observe_succ 0 h, outputs_of_busy, outputs_of_invalid, outputs_of_valid, ?_⟩
  rw [← step_ports h]
  rfl

end Sys2Proof.Machine

/-! ## The invariant of the machine, case by case (10_state.md R16, R18) -/

namespace Sys2Proof.Machine

theorem inv_iff_of_idle {s : State} (hs : s.seq = .idle) : s.Inv ↔ s.busy = false ∧ s.pins.AtRest := by
  unfold State.Inv; rw [hs]

theorem inv_iff_of_run {s : State} {n : Nat} (hs : s.seq = .run n) :
    s.Inv ↔ s.busy = true ∧ s.valid = false ∧ n ≤ lastIndex s.kind ∧
      ∃ d q, s.pins = pinsAfter (s.trace.take n) (restPins d q) := by
  unfold State.Inv; rw [hs]

theorem reset_inv : State.reset.Inv := (inv_iff_of_idle rfl).mpr ⟨rfl, rfl, rfl, rfl⟩

theorem restPins_atRest (d q : Bool) : (restPins d q).AtRest := ⟨rfl, rfl, rfl⟩

theorem Pins.AtRest.eq_restPins {p : Pins} (h : p.AtRest) : p = restPins p.dqDir p.dqOut := by
  obtain ⟨hce, hoe, hwe⟩ := h
  cases p
  simp_all [restPins]

/-- R18: `busy` says whether `SEQ` is `IDLE`. -/
theorem State.Inv.busy_iff {s : State} (h : s.Inv) : s.busy = true ↔ s.seq ≠ .idle := by
  cases hs : s.seq with
  | idle => simp [((inv_iff_of_idle hs).mp h).1]
  | run n => simp [((inv_iff_of_run hs).mp h).1]

theorem State.Inv.seq_eq_idle {s : State} (h : s.Inv) (hb : s.busy = false) : s.seq = .idle := by
  by_contra hne
  exact absurd (h.busy_iff.mpr hne) (by simp [hb])

theorem State.Inv.exists_run {s : State} (h : s.Inv) (hb : s.busy = true) : ∃ n, s.seq = .run n := by
  cases hs : s.seq with
  | idle => exact absurd hs (h.busy_iff.mp hb)
  | run n => exact ⟨n, rfl⟩

theorem State.Inv.atRest {s : State} (h : s.Inv) (hb : s.busy = false) : s.pins.AtRest :=
  ((inv_iff_of_idle (h.seq_eq_idle hb)).mp h).2

/-- What a step from a state of the invariant can do, and when (R211): reset, look at `cmd`, or perform the micro-operation
at `SEQ`. -/
theorem State.Inv.step_cases {s t : State} (h : s.Inv) (ht : step s = .next t) :
    (s.nextFrame.rst = true ∧ t = settled (resetBlock (takeInputs s))) ∨
    (s.nextFrame.rst = false ∧ s.seq = .idle ∧ s.busy = false ∧
      t = settled (accepted s.nextFrame (takeInputs s))) ∨
    (s.nextFrame.rst = false ∧ ∃ n x, s.seq = .run n ∧ s.trace[n]? = some x ∧
      t = settled (advance n (x.perform (takeInputs s)))) := by
  obtain ⟨u, hu, rfl⟩ := stepOnce_cases ht
  obtain ⟨hr, rfl⟩ | ⟨hr, hb, he⟩ | ⟨hr, hb, x, hx, rfl⟩ := act_cases hu
  · exact .inl ⟨hr, rfl⟩
  · rw [exec_command_of_idle _ hb] at he
    cases he
    exact .inr (.inl ⟨hr, h.seq_eq_idle hb, hb, rfl⟩)
  · obtain ⟨n, hn⟩ := h.exists_run hb
    have hslot : (takeInputs s).slot = s.trace[n]? := by unfold State.slot; rw [takeInputs_seq, hn]; rfl
    exact .inr (.inr ⟨hr, n, x, hn, hslot ▸ hx, by rw [takeInputs_seq, hn]; rfl⟩)

/-! ### Every step keeps it -/

/-- The accepting step, whichever cycle it accepts: a state at index 0 with the pins as they were. -/
theorem inv_at_start {s : State} (hs : s.seq = .run 0) (hb : s.busy = true) (hv : s.valid = false)
    (hp : s.pins.AtRest) : s.Inv :=
  (inv_iff_of_run hs).mpr ⟨hb, hv, Nat.zero_le _, _, _, hp.eq_restPins⟩

theorem accepted_inv (p : InputFrame) {s : State} (hs : s.seq = .idle) (hb : s.busy = false) (hp : s.pins.AtRest) :
    (accepted p s).Inv := by
  unfold accepted
  split_ifs
  · exact inv_at_start rfl rfl rfl hp
  · exact inv_at_start rfl rfl rfl hp
  · exact (inv_iff_of_idle hs).mpr ⟨hb, hp⟩

/-- The pins after one more micro-operation of a trace. -/
theorem onPins_pinsAfter_take {xs : List Slot} {n : Nat} {x : Slot} (hx : xs[n]? = some x) (p : Pins) :
    x.op.onPins (pinsAfter (xs.take n) p) = pinsAfter (xs.take (n + 1)) p := by
  rw [List.take_add_one, hx, pinsAfter_append]
  rfl

/-- A run step: the last one ends the cycle at rest (R223), any other leaves the pins as one more micro-operation does. -/
theorem advance_perform_inv {s : State} {n : Nat} {x : Slot} (h : s.Inv) (hs : s.seq = .run n)
    (hx : s.trace[n]? = some x) : (advance n (x.perform s)).Inv := by
  obtain ⟨hb, hv, hn, d, q, hp⟩ := (inv_iff_of_run hs).mp h
  obtain ⟨-, fbusy, fvalid, fkind, -⟩ := perform_frame x s
  have hpins : (advance n (x.perform s)).pins = pinsAfter (s.trace.take (n + 1)) (restPins d q) := by
    rw [advance_pins, perform_pins, hp, onPins_pinsAfter_take hx]
  by_cases hlast : n = lastIndex s.kind
  · refine (inv_iff_of_idle (by simp [fkind, hlast])).mpr ⟨by simp [fkind, hlast], ?_⟩
    rw [hpins, hlast, ← trace_length, List.take_length]
    exact trace_atRest s (restPins_atRest d q)
  · have htrace : (advance n (x.perform s)).trace = s.trace := by
      rw [← perform_trace (List.mem_of_getElem? hx)]
      simp [State.trace]
    refine (inv_iff_of_run (n := n + 1) (by simp [fkind, hlast])).mpr ⟨?_, ?_, ?_, d, q, by rw [htrace, hpins]⟩
    · simp [fkind, fbusy, hlast, hb]
    · simp [fkind, fvalid, hlast, hv]
    · rw [advance_kind, fkind]; omega

theorem step_inv {s t : State} (h : s.Inv) (ht : step s = .next t) : t.Inv := by
  obtain ⟨-, rfl⟩ | ⟨-, hs, hb, rfl⟩ | ⟨-, n, x, hs, hx, rfl⟩ := h.step_cases ht
  · exact (inv_iff_of_idle rfl).mpr ⟨rfl, rfl, rfl, rfl⟩
  · exact accepted_inv _ hs hb (h.atRest hb)
  · exact advance_perform_inv (s := takeInputs s) h hs hx

/-- Settles O45, by the three cases of a step: reset, an idle step, a run step. -/
theorem stepKeepsInvariant : Obligations.StepKeepsInvariant := fun _ _ => step_inv

/-- Settles O46: reset is idle, with the control lines high. -/
theorem resetMeetsInvariant : Obligations.ResetMeetsInvariant := reset_inv

/-- Settles O13: the values of R26's table and of `WAKE_CODE` (R21). -/
theorem resetLeavesRestState : Obligations.ResetLeavesRestState := by
  unfold Obligations.ResetLeavesRestState
  decide

/-! ## What the pins are when a micro-operation is issued (10_state.md R24) -/

/-- What holds when `u` is issued at the pins `p`, right after the entry `before` of the same trace: `CE_LO` finds the
chip disabled (R121), `OE_LO` the chip enabled and the line an input (R123), `DQ_DRV` and `WE_LO` the chip enabled and the
line an output (R125, R129), `DQ_SMP` the vector of R24 (e), and `WE_LO` the bit that the entry just before drives
(R24 (f)). The other five are issued without a condition. -/
def MicroOp.IssuedAt (before : Option Slot) (p : Pins) : MicroOp → Prop
  | .ceLo => p.ceN = true
  | .oeLo => p.ceN = false ∧ p.dqDir = false ∧ p.weN = true
  | .dqDrv _ => p.ceN = false ∧ p.dqDir = true
  | .weLo => p.ceN = false ∧ p.oeN = true ∧ p.dqDir = true ∧ before = some (.plain (.dqDrv p.dqOut))
  | .dqSmp => p.ceN = false ∧ p.oeN = false ∧ p.weN = true ∧ p.dqDir = false
  | .ceHi | .oeHi | .weHi | .dqIn | .dqOut => True

/-- Entered at the pins `p` after the entry `before`, the trace passes through safe pins only (R24 (a), (b), (c)), and
issues each micro-operation as `MicroOp.IssuedAt` says. -/
def WellIssued (before : Option Slot) (p : Pins) : List Slot → Prop
  | [] => p.Safe
  | x :: xs => p.Safe ∧ x.op.IssuedAt before p ∧ WellIssued (some x) (x.op.onPins p) xs

/-- The entry before index `n` of a trace, `before` standing in front of index 0. -/
def entryBefore (before : Option Slot) (xs : List Slot) : Nat → Option Slot
  | 0 => before
  | n + 1 => xs[n]?

theorem WellIssued.safe {before : Option Slot} {p : Pins} {xs : List Slot} (h : WellIssued before p xs) (n : Nat) :
    (pinsAfter (xs.take n) p).Safe := by
  induction xs generalizing before p n with
  | nil =>
    rw [List.take_nil]
    exact h
  | cons x xs ih =>
    obtain ⟨hsafe, -, hrest⟩ := h
    cases n with
    | zero => exact hsafe
    | succ n => exact ih hrest n

theorem WellIssued.issuedAt {before : Option Slot} {p : Pins} {xs : List Slot} (h : WellIssued before p xs) {n : Nat}
    {x : Slot} (hx : xs[n]? = some x) : x.op.IssuedAt (entryBefore before xs n) (pinsAfter (xs.take n) p) := by
  induction xs generalizing before p n with
  | nil => simp at hx
  | cons y ys ih =>
    obtain ⟨-, hissued, hrest⟩ := h
    cases n with
    | zero =>
      obtain rfl : y = x := by simpa using hx
      exact hissued
    | succ n =>
      have hbefore : entryBefore (some y) ys n = entryBefore before (y :: ys) (n + 1) := by cases n <;> rfl
      rw [← hbefore]
      exact ih hrest hx

theorem WellIssued.append {before : Option Slot} {p : Pins} {xs ys : List Slot} (hx : WellIssued before p xs)
    (hy : ∀ b, WellIssued b (pinsAfter xs p) ys) : WellIssued before p (xs ++ ys) := by
  induction xs generalizing before p with
  | nil => exact hy before
  | cons x xs ih =>
    obtain ⟨hsafe, hissued, hrest⟩ := hx
    exact ⟨hsafe, hissued, ih hrest hy⟩

/-! ### Traces that lead from one set of pins to another -/

/-- Entered at pins in `P`, after whatever entry, the trace is well issued and ends at pins in `Q`. -/
def Leads (P : Pins → Prop) (xs : List Slot) (Q : Pins → Prop) : Prop :=
  ∀ b p, P p → WellIssued b p xs ∧ Q (pinsAfter xs p)

theorem Leads.append {P Q R : Pins → Prop} {xs ys : List Slot} (hx : Leads P xs Q) (hy : Leads Q ys R) :
    Leads P (xs ++ ys) R := by
  intro b p hp
  obtain ⟨hissued, hq⟩ := hx b p hp
  refine ⟨hissued.append fun b' => (hy b' _ hq).1, ?_⟩
  rw [pinsAfter_append]
  exact (hy b _ hq).2

/-- A sequence of frames, each from `P` back to `P`; the sequence may be empty, so `P` itself has to be safe. -/
theorem Leads.flatMap {α : Type} {P : Pins → Prop} {f : α → List Slot} (hsafe : ∀ p, P p → p.Safe)
    (hf : ∀ a, Leads P (f a) P) (l : List α) : Leads P (l.flatMap f) P := by
  induction l with
  | nil => exact fun _ p hp => ⟨hsafe p hp, hp⟩
  | cons a l ih => exact (hf a).append ih

/-- The chip enabled, output-enable and write-enable high, the line in the direction `d`: what a byte's bit frames are
entered at. -/
def Pins.Selected (d : Bool) (p : Pins) : Prop := p.ceN = false ∧ p.oeN = true ∧ p.weN = true ∧ p.dqDir = d

theorem Pins.AtRest.safe {p : Pins} (h : p.AtRest) : p.Safe := by
  obtain ⟨-, hoe, hwe⟩ := h
  simp [Pins.Safe, hoe, hwe]

theorem Pins.Selected.safe {d : Bool} {p : Pins} (h : p.Selected d) : p.Safe := by
  obtain ⟨-, hoe, hwe, -⟩ := h
  simp [Pins.Safe, hoe, hwe]

theorem wrbitTrace_leads (b : Bool) : Leads (Pins.Selected true) (wrbitTrace b) (Pins.Selected true) := by
  rintro _ p ⟨hce, hoe, hwe, hdir⟩
  simp [WellIssued, wrbitTrace, Slot.plain, MicroOp.IssuedAt, MicroOp.onPins, Pins.Safe, Pins.Selected, *]

theorem rdbitTrace_leads (k : Sink) : Leads (Pins.Selected false) (rdbitTrace k) (Pins.Selected false) := by
  rintro _ p ⟨hce, hoe, hwe, hdir⟩
  simp [WellIssued, rdbitTrace, Slot.plain, MicroOp.IssuedAt, MicroOp.onPins, Pins.Safe, Pins.Selected, *]

/-- `CE_HI` releases the chip. -/
theorem ceHi_leads (d : Bool) (k : Sink) : Leads (Pins.Selected d) [⟨.ceHi, k⟩] Pins.AtRest := by
  rintro _ p ⟨hce, hoe, hwe, hdir⟩
  simp [WellIssued, MicroOp.IssuedAt, MicroOp.onPins, Pins.Safe, Pins.AtRest, *]

/-- The opening of `SENDB`: chip-enable, then the direction (R150). -/
theorem sendbOpening_leads : Leads Pins.AtRest [.plain .ceLo, .plain .dqOut] (Pins.Selected true) := by
  rintro _ p ⟨hce, hoe, hwe⟩
  simp [WellIssued, Slot.plain, MicroOp.IssuedAt, MicroOp.onPins, Pins.Safe, Pins.Selected, *]

/-- The opening of `RECVB`: the direction, then chip-enable (R155). -/
theorem recvbOpening_leads : Leads Pins.AtRest [.plain .dqIn, .plain .ceLo] (Pins.Selected false) := by
  rintro _ p ⟨hce, hoe, hwe⟩
  simp [WellIssued, Slot.plain, MicroOp.IssuedAt, MicroOp.onPins, Pins.Safe, Pins.Selected, *]

/-- The opening of the prime frame: chip-enable, then the direction (R171). -/
theorem primeOpening_leads : Leads Pins.AtRest [.plain .ceLo, .plain .dqIn] (Pins.Selected false) := by
  rintro _ p ⟨hce, hoe, hwe⟩
  simp [WellIssued, Slot.plain, MicroOp.IssuedAt, MicroOp.onPins, Pins.Safe, Pins.Selected, *]

theorem sendbTrace_leads (v : Byte) : Leads Pins.AtRest (sendbTrace v) Pins.AtRest :=
  (sendbOpening_leads.append (.flatMap (fun _ => Pins.Selected.safe) (fun _ => wrbitTrace_leads _) _)).append
    (ceHi_leads true .none)

theorem recvbTrace_leads (k : Sink) : Leads Pins.AtRest (recvbTrace k) Pins.AtRest :=
  (recvbOpening_leads.append (.flatMap (fun _ => Pins.Selected.safe) (fun _ => rdbitTrace_leads _) _)).append
    (ceHi_leads false k)

theorem primeTrace_leads : Leads Pins.AtRest primeTrace Pins.AtRest :=
  (primeOpening_leads.append (rdbitTrace_leads .none)).append (ceHi_leads false .none)

theorem wakeTrace_leads : Leads Pins.AtRest wakeTrace Pins.AtRest :=
  primeTrace_leads.append (.flatMap (fun _ => Pins.AtRest.safe) (fun _ => sendbTrace_leads _) _)

theorem readTrace_leads : Leads Pins.AtRest readTrace Pins.AtRest :=
  wakeTrace_leads.append (.flatMap (fun _ => Pins.AtRest.safe) (fun _ => recvbTrace_leads _) _)

theorem writeTrace_leads (img : RegisterImage) : Leads Pins.AtRest (writeTrace img) Pins.AtRest :=
  wakeTrace_leads.append (.flatMap (fun _ => Pins.AtRest.safe) (fun _ => sendbTrace_leads _) _)

theorem trace_leads (s : State) : Leads Pins.AtRest s.trace Pins.AtRest := by
  unfold State.trace
  split
  · exact writeTrace_leads s.img
  · exact readTrace_leads

/-! ### In every state of the invariant -/

theorem State.Inv.safe {s : State} (h : s.Inv) : s.pins.Safe := by
  cases hs : s.seq with
  | idle => exact ((inv_iff_of_idle hs).mp h).2.safe
  | run n =>
    obtain ⟨-, -, -, d, q, hp⟩ := (inv_iff_of_run hs).mp h
    rw [hp]
    exact (trace_leads s none _ (restPins_atRest d q)).1.safe n

/-- The micro-operation at `SEQ` is issued as it has to be. -/
theorem State.Inv.issuedAt {s : State} {n : Nat} {x : Slot} (h : s.Inv) (hs : s.seq = .run n)
    (hx : s.trace[n]? = some x) : x.op.IssuedAt (entryBefore none s.trace n) s.pins := by
  obtain ⟨-, -, -, d, q, hp⟩ := (inv_iff_of_run hs).mp h
  rw [hp]
  exact (trace_leads s none _ (restPins_atRest d q)).1.issuedAt hx

/-- With nothing in front of index 0, the entry before is the one at the index before. -/
theorem getElem?_pred_of_entryBefore {xs : List Slot} {n : Nat} {y : Slot} (h : entryBefore none xs n = some y) :
    xs[n - 1]? = some y := by
  cases n with
  | zero => cases h
  | succ n => exact h

/-- Settles O48: (a) to (c), (e) and (f) from `trace_leads`, by which a cycle issues every micro-operation as R24 says. -/
theorem pinInvariants : Obligations.PinInvariants := by
  refine ⟨reset_inv, fun _ _ => step_inv, fun s h => ⟨h.safe, h.atRest, h.busy_iff, fun n x hs hx => ?_⟩⟩
  have hissued := h.issuedAt hs hx
  refine ⟨fun hop => ?_, fun hop => ?_⟩ <;> rw [hop] at hissued
  · exact hissued
  · obtain ⟨-, -, hdir, hbefore⟩ := hissued
    exact ⟨hdir, getElem?_pred_of_entryBefore hbefore⟩

/-! ## What follows for a host and for the sequencer (10_state.md R15, R16) -/

theorem no_value_of_invalid {s : State} (h : s.valid = false) : s.readImage = none ∧ s.readCalendar = none := by
  simp [State.readImage, State.readCalendar, h]

/-- Settles O50: each of the three has `valid = 0`. -/
theorem noValueWhileRunning : Obligations.NoValueWhileRunning := by
  refine ⟨fun s n h hs => ?_, fun s t hr ht => ?_, no_value_of_invalid rfl⟩
  · obtain ⟨-, hv, -⟩ := (inv_iff_of_run hs).mp h
    exact no_value_of_invalid hv
  · rw [step_of_reset hr] at ht
    cases ht
    exact no_value_of_invalid rfl

theorem accepted_seq (p : InputFrame) (s : State) :
    (accepted p s).seq = if p.cmd = 0b01 ∨ p.cmd = 0b10 then .run 0 else s.seq := by
  unfold accepted
  split_ifs <;> simp_all

/-- Settles O51, by the three cases of a step. -/
theorem transfersOfControl : Obligations.TransfersOfControl := by
  intro s t h ht
  obtain ⟨hr, rfl⟩ | ⟨hr, hs, -, rfl⟩ | ⟨hr, n, x, hs, hx, rfl⟩ := h.step_cases ht
  · simp [hr]
  · simp [hr, hs, accepted_seq]
  · obtain ⟨-, -, hn, -⟩ := (inv_iff_of_run hs).mp h
    obtain ⟨-, -, -, fkind, -⟩ := perform_frame x (takeInputs s)
    refine ⟨by simp [hr], by simp [hs], fun m _ hm => ?_⟩
    obtain rfl : n = m := by rw [hs] at hm; cases hm; rfl
    refine ⟨hn, ?_⟩
    rw [settled_seq, advance_seq, fkind, takeInputs_kind]
    rfl

end Sys2Proof.Machine

/-! ## The 64-bit ports (10_state.md R11, R20; 20_memory.md R45) -/

namespace Sys2Proof.Machine

/-- Bit `8k + i` of `img_out` is `IMG[k][i]` (R20, R45). -/
theorem toPort_getLsbD (img : RegisterImage) (k i : Fin 8) :
    img.toPort.getLsbD (8 * k.val + i.val) = bitOf (img.get k) i := by
  have hi := i.isLt
  simp only [RegisterImage.toPort, bitOf, BitVec.getLsbD_append]
  fin_cases k <;> simp only [RegisterImage.get] <;> grind

theorem extractLsb'_eq_of_bits {w : BitVec 64} {k : Fin 8} {v : Byte}
    (h : ∀ i : Fin 8, w.getLsbD (8 * k.val + i.val) = bitOf v i) : w.extractLsb' (8 * k.val) 8 = v := by
  apply byte_ext
  intro i
  rw [← h i]
  simp [bitOf]

theorem word_ext {w w' : BitVec 64}
    (h : ∀ k i : Fin 8, w.getLsbD (8 * k.val + i.val) = w'.getLsbD (8 * k.val + i.val)) : w = w' := by
  apply BitVec.eq_of_getLsbD_eq
  intro n hn
  have hsplit := h ⟨n / 8, by omega⟩ ⟨n % 8, by omega⟩
  simpa [Nat.div_add_mod] using hsplit

/-- The fields of a calendar in the order of the register image (R11). -/
def calendarBytes (ct : CalendarTime) : RegisterImage :=
  ⟨ct.subsec, ct.second, ct.minute, ct.hour, ct.dow, ct.date, ct.month, ct.year⟩

theorem calendarBytes_toPort (ct : CalendarTime) : (calendarBytes ct).toPort = ct.toPort := rfl

theorem calendarBytes_ofPort (w : BitVec 64) (k : Fin 8) :
    (calendarBytes (CalendarTime.ofPort w)).get k = w.extractLsb' (8 * k.val) 8 := by
  fin_cases k <;> rfl

theorem toPort_extractLsb' (ct : CalendarTime) (k : Fin 8) :
    ct.toPort.extractLsb' (8 * k.val) 8 = (calendarBytes ct).get k :=
  extractLsb'_eq_of_bits (toPort_getLsbD (calendarBytes ct) k)

theorem calendarBytes_injective {ct ct' : CalendarTime} (h : calendarBytes ct = calendarBytes ct') : ct = ct' := by
  cases ct; cases ct'
  simpa [calendarBytes] using h

theorem ofPort_toPort (ct : CalendarTime) : CalendarTime.ofPort ct.toPort = ct := by
  apply calendarBytes_injective
  apply RegisterImage.ext_get
  intro k
  rw [calendarBytes_ofPort, toPort_extractLsb']

theorem toPort_ofPort (w : BitVec 64) : (CalendarTime.ofPort w).toPort = w := by
  apply word_ext
  intro k i
  rw [← calendarBytes_toPort, toPort_getLsbD, calendarBytes_ofPort]
  simp [bitOf]

/-- Settles O6: bit `8k + i` of a port is bit `i` of byte `k`, and bytes and bits are all that a word is. -/
theorem portLayouts : Obligations.PortLayouts := by
  refine ⟨ofPort_toPort, toPort_ofPort, fun ct k => ?_, fun s k i => toPort_getLsbD s.img k i⟩
  rw [toPort_extractLsb']
  fin_cases k <;> rfl

/-! ## The direction left behind (10_state.md R22) -/

/-- What `SENDB` leaves (R151). -/
theorem pinsAfter_sendbTrace (v : Byte) (p : Pins) :
    pinsAfter (sendbTrace v) p =
      { ceN := true, oeN := p.oeN, weN := true, dqDir := true, dqOut := bitOf v 7 } := rfl

/-- What `RECVB` leaves (R156). -/
theorem pinsAfter_recvbTrace (k : Sink) (p : Pins) :
    pinsAfter (recvbTrace k) p =
      { ceN := true, oeN := true, weN := p.weN, dqDir := false, dqOut := p.dqOut } := rfl

/-- What the prime frame leaves (R172). -/
theorem pinsAfter_primeTrace (p : Pins) :
    pinsAfter primeTrace p = { ceN := true, oeN := true, weN := p.weN, dqDir := false, dqOut := p.dqOut } := rfl

theorem pinsAfter_sendbs (f : Fin 8 → Byte) (p : Pins) :
    pinsAfter (octet.flatMap fun k => sendbTrace (f k)) p =
      { ceN := true, oeN := p.oeN, weN := true, dqDir := true, dqOut := bitOf (f 7) 7 } := by
  simp [octet, pinsAfter_append, pinsAfter_sendbTrace]

theorem pinsAfter_recvbs (f : Fin 8 → Sink) (p : Pins) :
    pinsAfter (octet.flatMap fun k => recvbTrace (f k)) p =
      { ceN := true, oeN := true, weN := p.weN, dqDir := false, dqOut := p.dqOut } := by
  simp [octet, pinsAfter_append, pinsAfter_recvbTrace]

/-- What `WAKE` leaves (R173): `WAKE_CODE[7][7]` is 0. -/
theorem pinsAfter_wakeTrace (p : Pins) :
    pinsAfter wakeTrace p = { ceN := true, oeN := true, weN := true, dqDir := true, dqOut := false } := by
  rw [wakeTrace, pinsAfter_append, pinsAfter_sendbs, pinsAfter_primeTrace]
  rfl

/-- What a read cycle leaves (R218). -/
theorem pinsAfter_readTrace (p : Pins) :
    pinsAfter readTrace p = { ceN := true, oeN := true, weN := true, dqDir := false, dqOut := false } := by
  rw [readTrace, pinsAfter_append, pinsAfter_recvbs, pinsAfter_wakeTrace]

/-- What a write cycle leaves (R222). -/
theorem pinsAfter_writeTrace (img : RegisterImage) (p : Pins) :
    pinsAfter (writeTrace img) p =
      { ceN := true, oeN := true, weN := true, dqDir := true, dqOut := bitOf img.b7 7 } := by
  rw [writeTrace, pinsAfter_append, pinsAfter_sendbs, pinsAfter_wakeTrace]
  rfl

/-- Settles O26, from the pins that each trace leaves. -/
theorem directionLeftBehind : Obligations.DirectionLeftBehind := by
  intro p v k img
  rw [pinsAfter_sendbTrace, pinsAfter_recvbTrace, pinsAfter_primeTrace, pinsAfter_wakeTrace, pinsAfter_readTrace,
    pinsAfter_writeTrace]
  exact ⟨rfl, rfl, rfl, rfl, rfl, rfl, rfl, rfl⟩

/-! ## The index of a cycle (10_state.md R16) -/

/-- A concatenation of blocks of `m` entries: index `m * i + n` is entry `n` of block `i`. -/
theorem getElem?_flatMap_block {α β : Type} {f : α → List β} {m : Nat} (hf : ∀ a, (f a).length = m) {l : List α}
    {i n : Nat} {a : α} (ha : l[i]? = some a) (hn : n < m) : (l.flatMap f)[m * i + n]? = (f a)[n]? := by
  induction l generalizing i with
  | nil => simp at ha
  | cons b l ih =>
    rw [List.flatMap_cons]
    cases i with
    | zero =>
      obtain rfl : b = a := by simpa using ha
      rw [Nat.mul_zero, Nat.zero_add, List.getElem?_append_left (by rw [hf]; exact hn)]
    | succ i =>
      rw [List.getElem?_append_right (by rw [hf, Nat.mul_succ]; omega), hf, ← ih (by simpa using ha)]
      congr 1
      rw [Nat.mul_succ]; omega

theorem octet_getElem? (k : Fin 8) : octet[k.val]? = some k := by
  fin_cases k <;> rfl

/-- After an opening, index `opening + m * k + n` is entry `n` of frame `k`. -/
theorem getElem?_opening_frames {xs : List Slot} {f : Fin 8 → List Slot} {m : Nat} (hf : ∀ k, (f k).length = m)
    (k : Fin 8) {n : Nat} (hn : n < m) : (xs ++ octet.flatMap f)[xs.length + m * k.val + n]? = (f k)[n]? := by
  rw [List.getElem?_append_right (by omega), ← getElem?_flatMap_block hf (octet_getElem? k) hn]
  congr 1
  omega

theorem wakeTrace_getElem? (j : Fin 8) {n : Nat} (hn : n < 35) :
    wakeTrace[6 + 35 * j.val + n]? = (sendbTrace (wakeCode j))[n]? :=
  getElem?_opening_frames (xs := primeTrace) (fun k => sendbTrace_length (wakeCode k)) j hn

theorem readTrace_getElem? (k : Fin 8) {n : Nat} (hn : n < 27) :
    readTrace[286 + 27 * k.val + n]? = (recvbTrace (.toImg k))[n]? := by
  rw [← wakeTrace_length]
  exact getElem?_opening_frames (fun k => recvbTrace_length (.toImg k)) k hn

theorem writeTrace_getElem? (img : RegisterImage) (k : Fin 8) {n : Nat} (hn : n < 35) :
    (writeTrace img)[286 + 35 * k.val + n]? = (sendbTrace (img.get k))[n]? := by
  rw [← wakeTrace_length]
  exact getElem?_opening_frames (fun k => sendbTrace_length (img.get k)) k hn

/-- A cycle that begins with `WAKE` begins with the prime frame, then the wake bytes. -/
theorem index_of_wake (ys : List Slot) :
    ((wakeTrace ++ ys).take 6).map (fun x => x.op) = [.ceLo, .dqIn, .oeLo, .dqSmp, .oeHi, .ceHi] ∧
    ∀ (j : Fin 8) (n : Nat), n < 35 → (wakeTrace ++ ys)[6 + 35 * j.val + n]? = (sendbTrace (wakeCode j))[n]? := by
  refine ⟨rfl, fun j n hn => ?_⟩
  rw [List.getElem?_append_left (by rw [wakeTrace_length]; omega)]
  exact wakeTrace_getElem? j hn

theorem index_within_sendb (v : Byte) (i : Fin 8) :
    ((sendbTrace v).take 2).map (fun x => x.op) = [.ceLo, .dqOut] ∧
    (((sendbTrace v).drop (2 + 4 * i.val)).take 4).map (fun x => x.op) = [.dqOut, .dqDrv (bitOf v i), .weLo, .weHi] ∧
    ((sendbTrace v).drop 34).map (fun x => x.op) = [.ceHi] :=
  ⟨rfl, by fin_cases i <;> rfl, rfl⟩

theorem index_within_recvb (k : Sink) (i : Fin 8) :
    ((recvbTrace k).take 2).map (fun x => x.op) = [.dqIn, .ceLo] ∧
    ((recvbTrace k).drop (2 + 3 * i.val)).take 3 = [⟨.oeLo, .none⟩, ⟨.dqSmp, .toShr i⟩, ⟨.oeHi, .none⟩] ∧
    (recvbTrace k).drop 26 = [⟨.ceHi, k⟩] :=
  ⟨rfl, by fin_cases i <;> rfl, rfl⟩

/-- Settles O41: the frames of a cycle have equal lengths, so an index divides into a frame and a place in it. -/
theorem indexTable : Obligations.IndexTable := by
  refine ⟨fun img xs hxs => ?_, fun k n => readTrace_getElem? k, fun img k n => writeTrace_getElem? img k,
    index_within_sendb, fun k => index_within_recvb (.toImg k)⟩
  simp only [List.mem_cons, List.not_mem_nil, or_false] at hxs
  obtain rfl | rfl := hxs
  · exact index_of_wake _
  · exact index_of_wake _

end Sys2Proof.Machine

/-! ## The decoder and the encoder (30_encoding.md R80, R82) -/

namespace Sys2Proof

/-- A 1-bit operand is read back from its byte. -/
theorem withBit_bitByte (f : Bool → Instr) (b : Bool) (rest : List Byte) :
    withBit f (bitByte b :: rest) = .ok (f b, rest) := by
  cases b <;> rfl

theorem decode_encode (i : Instr) (rest : List Byte) : decode (encode i ++ rest) = .ok (i, rest) := by
  cases i with
  | dqDrv b => cases b <;> rfl
  | wrbit b => exact withBit_bitByte .wrbit b rest
  | _ => rfl

/-- Settles O1: the opid selects the operation's own branch of the decoder, which reads the operand back. -/
theorem decodeAfterEncode : Obligations.DecodeAfterEncode := fun i rest _ => decode_encode i rest

/-! ### What a branch of the decoder accepts is an encoding -/

section
variable {op : Byte} {bs rest : List Byte} {i j : Instr}

theorem cons_eq_encode (hop : op.toNat = (opid i).toNat) (hbs : bs = operandBytes i ++ rest) :
    op :: bs = encode i ++ rest := by
  rw [BitVec.eq_of_toNat_eq hop, hbs]
  rfl

theorem cons_eq_encode_of_plain
    (h : Except.ok (j, bs) = (Except.ok (i, rest) : Except DecodeError (Instr × List Byte)))
    (hop : op.toNat = (opid j).toNat) (hj : operandBytes j = []) :
    op :: bs = encode i ++ rest := by
  cases h
  exact cons_eq_encode hop (by rw [hj]; rfl)

theorem cons_eq_encode_of_withByte {f : Byte → Instr} (h : withByte f bs = .ok (i, rest))
    (hop : ∀ v, op.toNat = (opid (f v)).toNat) (hf : ∀ v, operandBytes (f v) = [v]) : op :: bs = encode i ++ rest := by
  cases bs with
  | nil => cases h
  | cons v vs =>
    cases h
    exact cons_eq_encode (hop v) (by rw [hf]; rfl)

/-- A byte below 2 is the byte of the bit it stands for. -/
theorem bitByte_of_lt_two {v : Byte} (h : v.toNat < 2) : bitByte (v.toNat == 1) = v := by
  apply BitVec.eq_of_toNat_eq
  obtain h | h : v.toNat = 0 ∨ v.toNat = 1 := by omega
  all_goals rw [h]; rfl

theorem cons_eq_encode_of_withBit {f : Bool → Instr} (h : withBit f bs = .ok (i, rest))
    (hop : ∀ b, op.toNat = (opid (f b)).toNat) (hf : ∀ b, operandBytes (f b) = [bitByte b]) :
    op :: bs = encode i ++ rest := by
  cases bs with
  | nil => cases h
  | cons v vs =>
    simp only [withBit] at h
    split at h
    next hv =>
      cases h
      exact cons_eq_encode (hop _) (by rw [hf, bitByte_of_lt_two hv]; rfl)
    next => cases h

theorem cons_eq_encode_of_withEight {f : Byte → Byte → Byte → Byte → Byte → Byte → Byte → Byte → Instr}
    (h : withEight f bs = .ok (i, rest))
    (hop : ∀ v0 v1 v2 v3 v4 v5 v6 v7, op.toNat = (opid (f v0 v1 v2 v3 v4 v5 v6 v7)).toNat)
    (hf : ∀ v0 v1 v2 v3 v4 v5 v6 v7, operandBytes (f v0 v1 v2 v3 v4 v5 v6 v7) = [v0, v1, v2, v3, v4, v5, v6, v7]) :
    op :: bs = encode i ++ rest := by
  unfold withEight at h
  split at h
  · cases h
    exact cons_eq_encode (hop _ _ _ _ _ _ _ _) (by rw [hf]; rfl)
  · cases h

end

/-- The 24 opids branch by branch: by the operand that follows, the last branch answering an error. -/
theorem eq_encode_of_decode {bs rest : List Byte} {i : Instr} (h : decode bs = .ok (i, rest)) :
    bs = encode i ++ rest := by
  cases bs with
  | nil => cases h
  | cons op bs =>
    simp only [decode] at h
    split at h
    case h_25 => cases h
    case h_15 hop => exact cons_eq_encode_of_withBit h (fun _ => hop) fun _ => rfl
    case h_17 hop | h_20 hop | h_21 hop | h_22 hop =>
      exact cons_eq_encode_of_withByte h (fun _ => hop) fun _ => rfl
    case h_3 hop | h_23 hop | h_24 hop =>
      exact cons_eq_encode_of_withEight h (fun _ _ _ _ _ _ _ _ => hop) fun _ _ _ _ _ _ _ _ => rfl
    all_goals
      rename_i hop
      exact cons_eq_encode_of_plain h hop rfl

theorem wf_eq_true (i : Instr) : i.wf = true := by cases i <;> rfl

/-- Settles O2: each branch of the decoder accepts only the encodings of its own operation. -/
theorem encodeAfterDecode : Obligations.EncodeAfterDecode :=
  fun _ _ i h => ⟨eq_encode_of_decode h, wf_eq_true i⟩

/-! ### Opids that the table does not list -/

/-- The opids of the table of R80. -/
def listedOpids : List Nat :=
  [0x00, 0x01, 0x02, 0x40, 0x41, 0x42, 0x43, 0x44, 0x45, 0x46, 0x47, 0x48, 0x49, 0x4A,
    0x80, 0x81, 0x82, 0x83, 0x84, 0xC0, 0xC1, 0xC2, 0xC3, 0xC4]

theorem decode_of_unlisted {op : Byte} (hop : op.toNat ∉ listedOpids) (rest : List Byte) :
    decode (op :: rest) = .error (.invalidOpid op) := by
  simp only [decode]
  split
  case h_25 => rfl
  all_goals
    next hlisted =>
    rw [hlisted] at hop
    exact absurd (by decide) hop

end Sys2Proof

namespace Sys2Proof.Machine

theorem code_toNat_lt (m : MicroOp) : m.code.toNat < 0b1011 := by
  cases m with
  | dqDrv b => cases b <;> decide
  | _ => decide

theorem ofCode_of_unlisted {u : BitVec 4} (hu : 0b1011 ≤ u.toNat) : MicroOp.ofCode u = none := by
  unfold MicroOp.ofCode
  split
  case h_12 => rfl
  all_goals omega

/-- Settles O3: an unlisted code takes the last branch of its decoder. -/
theorem unlistedCodesAreInvalid : Obligations.UnlistedCodesAreInvalid :=
  ⟨fun _ rest hop => decode_of_unlisted hop rest, fun _ => ofCode_of_unlisted, fun _ x _ => code_toNat_lt x.op⟩

/-- Settles O4: the decoder run on the nine words. -/
theorem tableWordsDecode : Obligations.TableWordsDecode := by
  unfold Obligations.TableWordsDecode
  decide

/-! ## The codes of the micro-operations and of the commands (30_encoding.md R78, R79, R81) -/

theorem exists_of_code {u : BitVec 4} (hu : u.toNat ≤ 0b1010) : ∃ m, MicroOp.ofCode u = some m ∧ m.code = u := by
  have hcodes : ∀ u : BitVec 4, u.toNat ≤ 0b1010 → (MicroOp.ofCode u).map MicroOp.code = some u := by decide
  exact Option.map_eq_some_iff.mp (hcodes u hu)

/-- R79: of the codes up to `1001`, `u[3:1]` is the place of the pin written and `u[0]` its value. -/
theorem onPins_of_code {m : MicroOp} (hm : m.code.toNat ≤ 0b1001) (p : Pins) :
    [(m.onPins p).ceN, (m.onPins p).oeN, (m.onPins p).weN, (m.onPins p).dqDir, (m.onPins p).dqOut] =
      [p.ceN, p.oeN, p.weN, p.dqDir, p.dqOut].set (m.code.toNat / 2) (m.code.toNat % 2 == 1) := by
  cases m with
  | dqSmp => exact absurd hm (by decide)
  | dqDrv b => cases b <;> rfl
  | _ => rfl

theorem eq_dqSmp_iff_code (m : MicroOp) : m = .dqSmp ↔ m.code = 0b1010 := by
  cases m with
  | dqDrv b => cases b <;> decide
  | _ => decide

theorem samples_iff (m : MicroOp) : m.samples = true ↔ m = .dqSmp := by
  cases m <;> simp [MicroOp.samples]

theorem samples_of_code {m : MicroOp} (hm : m.code.toNat ≤ 0b1001) : m.samples = false := by
  rw [Bool.eq_false_iff, Ne, samples_iff]
  rintro rfl
  exact absurd hm (by decide)

theorem opid_instr (m : MicroOp) : (opid m.instr).toNat = 0b01000000 + m.code.toNat := by
  cases m with
  | dqDrv b => cases b <;> rfl
  | _ => rfl

/-- Settles O5: each micro-operation against its code; `1010` is the code of `DQ_SMP` alone. -/
theorem microOperationCodes : Obligations.MicroOperationCodes := by
  refine ⟨fun _ => exists_of_code, fun m p hm => ⟨onPins_of_code hm p, samples_of_code hm⟩, fun m p hm => ?_,
    opid_instr⟩
  obtain rfl := (eq_dqSmp_iff_code m).mpr hm
  exact ⟨rfl, rfl⟩

/-- Settles O8: the command of each code is an operation whose encoding stands before `rest`. -/
theorem commandCodesDecode : Obligations.CommandCodesDecode := by
  intro p rest
  rw [commandOf_eq]
  refine ⟨fun hc => ?_, fun hc => ?_, fun hc => ?_, fun hc => ?_⟩ <;> rw [hc]
  · exact decode_encode .nop rest
  · exact decode_encode .rdcyc rest
  · exact decode_encode (.wrcyc (CalendarTime.ofPort p.ctIn)) rest
  · rfl

end Sys2Proof.Machine

/-! ## The oscillator flag (30_encoding.md R75; 44_register_codec.md R192, R200) -/

namespace Sys2Proof.Machine

theorem regEnc_b4_toNat (ct : CalendarTime) :
    (regEnc ct).b4.toNat = (ct.dow.toNat / 10 * 16 + ct.dow.toNat % 10) % 256 := by
  simp [regEnc, bcdEnc]

/-- `OSC_DIS` is bit 5 of byte 4 (R75), so bit 1 of its tens nibble. -/
theorem oscDis_iff (img : RegisterImage) : oscDis img = true ↔ img.b4.toNat / 32 % 2 = 1 := by
  simp [oscDis, BitVec.getLsbD, Nat.testBit_eq_decide_div_mod_eq]

/-- R200: `OSC_DIS` of an encoded calendar is bit 1 of the day-of-week's tens, so the parity of its twenties. -/
theorem oscDis_regEnc_iff (ct : CalendarTime) : oscDis (regEnc ct) = true ↔ ct.dow.toNat / 20 % 2 = 1 := by
  have htens : ct.dow.toNat / 10 / 2 = ct.dow.toNat / 20 := Nat.div_div_eq_div_mul _ _ _
  have hunits : ct.dow.toNat % 10 < 16 := by omega
  rw [oscDis_iff, regEnc_b4_toNat, ← htens]
  generalize ct.dow.toNat / 10 = q at *
  generalize ct.dow.toNat % 10 = r at *
  omega

/-- Decoding looks at the low nibble of byte 4 only (R192). -/
theorem regDec_congr_b4 {img : RegisterImage} {v : Byte} (h : v &&& 0x0F = img.b4 &&& 0x0F) :
    regDec { img with b4 := v } = regDec img := by
  simp only [regDec, h]

theorem and_low_nibble_eq_zero {h : Byte} (hh : h.toNat % 16 = 0) : h &&& 0x0F = 0 := by
  apply BitVec.eq_of_toNat_eq
  rw [BitVec.toNat_and]
  exact (Nat.and_two_pow_sub_one_eq_mod h.toNat 4).trans hh

/-- Settles O34: byte 4 is `16 * (dow / 10) + dow % 10`, and decoding masks its high nibble. -/
theorem oscillatorFlag : Obligations.OscillatorFlag := by
  refine ⟨fun ct h1 h7 => ⟨?_, ?_⟩, fun ct => ?_, fun img h hh => regDec_congr_b4 ?_⟩
  · rw [regEnc_b4_toNat]; omega
  · rw [Bool.eq_false_iff, Ne, oscDis_regEnc_iff]; omega
  · have hdow := ct.dow.isLt
    rw [oscDis_regEnc_iff]; omega
  · rw [BitVec.and_or_distrib_right, and_low_nibble_eq_zero hh]; simp [BitVec.and_assoc]

end Sys2Proof.Machine

/-! ## How often a trace performs each micro-operation (30_encoding.md R71) -/

namespace Sys2Proof.Machine

/-- The columns of R71's table for a trace. -/
def opCounts (xs : List Slot) : List Nat :=
  [countOp .ceLo xs, countOp .ceHi xs, countOp .oeLo xs, countOp .dqSmp xs, countOp .oeHi xs, countOp .weLo xs,
    countOp .weHi xs, countOp .dqIn xs, countOp .dqOut xs, countDrv xs]

theorem countOp_append (u : MicroOp) (xs ys : List Slot) : countOp u (xs ++ ys) = countOp u xs + countOp u ys :=
  List.countP_append

theorem countDrv_append (xs ys : List Slot) : countDrv (xs ++ ys) = countDrv xs + countDrv ys := by
  simp only [countDrv, countOp_append]
  omega

theorem opCounts_append (xs ys : List Slot) :
    opCounts (xs ++ ys) = List.zipWith (· + ·) (opCounts xs) (opCounts ys) := by
  simp only [opCounts, countOp_append, countDrv_append, List.zipWith_cons_cons, List.zipWith_nil_left]

/-- Eight frames with the same counts. -/
theorem opCounts_octet {f : Fin 8 → List Slot} {row : List Nat} (h : ∀ k, opCounts (f k) = row) :
    opCounts (octet.flatMap f) = row.map (8 * ·) := by
  obtain rfl := h 0
  simp only [octet, List.flatMap_cons, List.flatMap_nil, List.append_nil, opCounts_append, h]
  simp only [opCounts, List.zipWith_cons_cons, List.zipWith_nil_left, List.map_cons, List.map_nil, List.cons.injEq,
    and_true]
  omega

theorem opCounts_wrbitTrace (b : Bool) : opCounts (wrbitTrace b) = [0, 0, 0, 0, 0, 1, 1, 0, 1, 1] := by
  cases b <;> rfl

theorem opCounts_sendbTrace (v : Byte) : opCounts (sendbTrace v) = [1, 1, 0, 0, 0, 8, 8, 0, 9, 8] := by
  rw [sendbTrace, opCounts_append, opCounts_append, opCounts_octet fun i => opCounts_wrbitTrace (bitOf v i)]
  rfl

theorem opCounts_recvbTrace (k : Sink) : opCounts (recvbTrace k) = [1, 1, 8, 8, 8, 0, 0, 1, 0, 0] := rfl

theorem opCounts_wakeTrace : opCounts wakeTrace = [9, 9, 1, 1, 1, 64, 64, 1, 72, 64] := by
  rw [wakeTrace, opCounts_append, opCounts_octet fun j => opCounts_sendbTrace (wakeCode j)]
  rfl

theorem opCounts_readTrace : opCounts readTrace = [17, 17, 65, 65, 65, 64, 64, 9, 72, 64] := by
  rw [readTrace, opCounts_append, opCounts_wakeTrace, opCounts_octet fun k => opCounts_recvbTrace (.toImg k)]
  rfl

theorem opCounts_writeTrace (img : RegisterImage) :
    opCounts (writeTrace img) = [17, 17, 1, 1, 1, 128, 128, 1, 144, 128] := by
  rw [writeTrace, opCounts_append, opCounts_wakeTrace, opCounts_octet fun k => opCounts_sendbTrace (img.get k)]
  rfl

/-- Settles O40: lengths and counts add up frame by frame. -/
theorem frameLengthsAndCounts : Obligations.FrameLengthsAndCounts :=
  ⟨fun _ => rfl, fun _ => rfl, sendbTrace_length, recvbTrace_length, primeTrace_length, wakeTrace_length,
    readTrace_length, writeTrace_length, opCounts_wakeTrace, opCounts_readTrace, opCounts_writeTrace⟩

end Sys2Proof.Machine

/-! ## What a trace commits to the chip (20_memory.md R54; 30_encoding.md R77) -/

namespace Sys2Proof.Machine

/-- The bits of eight bytes in wire order. -/
def wireBits (f : Fin 8 → Byte) : List Bool := octet.flatMap fun k => octet.map fun i => bitOf (f k) i

/-- `SENDB` commits the bits of its byte, whatever the pins but `we_n` were (R158). -/
theorem committed_sendbTrace (v : Byte) {p : Pins} (hp : p.weN = true) :
    committed (sendbTrace v) p = octet.map fun i => some (bitOf v i) := by
  obtain ⟨ce, oe, we, dir, out⟩ := p
  cases hp
  rfl

theorem committed_recvbTrace (k : Sink) {p : Pins} (hp : p.weN = true) : committed (recvbTrace k) p = [] := by
  obtain ⟨ce, oe, we, dir, out⟩ := p
  cases hp
  rfl

theorem committed_primeTrace {p : Pins} (hp : p.weN = true) : committed primeTrace p = [] := by
  obtain ⟨ce, oe, we, dir, out⟩ := p
  cases hp
  rfl

/-- What frames commit that leave `we_n` high: frame after frame. -/
theorem committed_flatMap {α : Type} {f : α → List Slot} {g : α → List (Option Bool)}
    (hf : ∀ a p, Pins.weN p = true → committed (f a) p = g a ∧ (pinsAfter (f a) p).weN = true) (l : List α)
    {p : Pins} (hp : p.weN = true) : committed (l.flatMap f) p = l.flatMap g := by
  induction l generalizing p with
  | nil => rfl
  | cons a l ih =>
    obtain ⟨hcommitted, hwe⟩ := hf a p hp
    rw [List.flatMap_cons, committed_append, hcommitted, ih hwe, List.flatMap_cons]

theorem committed_sendbs (f : Fin 8 → Byte) {p : Pins} (hp : p.weN = true) :
    committed (octet.flatMap fun k => sendbTrace (f k)) p = (wireBits f).map some := by
  rw [committed_flatMap (fun k _ hp => ⟨committed_sendbTrace (f k) hp, rfl⟩) octet hp, wireBits, List.map_flatMap]
  simp only [List.map_map]
  rfl

theorem committed_recvbs (f : Fin 8 → Sink) {p : Pins} (hp : p.weN = true) :
    committed (octet.flatMap fun k => recvbTrace (f k)) p = [] := by
  rw [committed_flatMap (fun k _ hp => ⟨committed_recvbTrace (f k) hp, hp⟩) octet hp]
  rfl

theorem committed_wakeTrace {p : Pins} (hp : p.weN = true) :
    committed wakeTrace p = (wireBits wakeCode).map some := by
  rw [wakeTrace, committed_append, committed_primeTrace hp, List.nil_append, committed_sendbs]
  rw [pinsAfter_primeTrace, hp]

theorem weN_pinsAfter_wakeTrace (p : Pins) : (pinsAfter wakeTrace p).weN = true := by rw [pinsAfter_wakeTrace]

theorem committed_readTrace {p : Pins} (hp : p.weN = true) :
    committed readTrace p = (wireBits wakeCode).map some := by
  rw [readTrace, committed_append, committed_wakeTrace hp, committed_recvbs _ (weN_pinsAfter_wakeTrace p),
    List.append_nil]

theorem committed_writeTrace (img : RegisterImage) {p : Pins} (hp : p.weN = true) :
    committed (writeTrace img) p = (wireBits wakeCode).map some ++ (wireBits img.get).map some := by
  rw [writeTrace, committed_append, committed_wakeTrace hp, committed_sendbs _ (weN_pinsAfter_wakeTrace p)]

/-- The bits of an image in wire order are the bits of `img_out` from bit 0 up (R45). -/
theorem wireBits_get (img : RegisterImage) :
    wireBits img.get = (List.range 64).map fun n => img.toPort.getLsbD n := by
  have hrange : List.range 64 = octet.flatMap fun k => octet.map fun i => 8 * k.val + i.val := by decide
  simp only [hrange, List.map_flatMap, List.map_map, wireBits, Function.comp_def, toPort_getLsbD]

/-- Settles O42: `SENDB` commits its byte's bits and no other frame commits any. -/
theorem committedStream : Obligations.CommittedStream := by
  intro img p hp wakeBits
  have hwake : (wireBits wakeCode).map some = wakeBits.map fun b => some (b == 1) := by decide
  rw [committed_readTrace hp, committed_writeTrace img hp, hwake, wireBits_get, List.map_map]
  exact ⟨rfl, rfl⟩

end Sys2Proof.Machine

/-! ## The procedures as traces (30_encoding.md R87) -/

namespace Sys2Proof.Machine

/-- Cases on the five procedures; every other operation has no trace. -/
theorem procedureTrace_cases {i : Instr} {xs : List Slot} (h : procedureTrace i = some xs) :
    (∃ b, i = .wrbit b ∧ xs = wrbitTrace b) ∨ (i = .rdbit ∧ xs = rdbitTrace .none) ∨
    (∃ v, i = .sendb v ∧ xs = sendbTrace v) ∨ (i = .recvb ∧ xs = recvbTrace .toRet) ∨
    (i = .wake ∧ xs = wakeTrace) := by
  cases i <;> cases h <;> simp

/-- `exec` of a procedure performs its trace. -/
theorem exec_of_procedureTrace {i : Instr} {xs : List Slot} (h : procedureTrace i = some xs) (s : State) :
    exec i s = .next (performAll xs s) := by
  obtain ⟨b, rfl, rfl⟩ | ⟨rfl, rfl⟩ | ⟨v, rfl, rfl⟩ | ⟨rfl, rfl⟩ | ⟨rfl, rfl⟩ := procedureTrace_cases h <;> rfl

theorem procedureTrace_ne_nil {i : Instr} {xs : List Slot} (h : procedureTrace i = some xs) : xs ≠ [] := by
  obtain ⟨b, rfl, rfl⟩ | ⟨rfl, rfl⟩ | ⟨v, rfl, rfl⟩ | ⟨rfl, rfl⟩ | ⟨rfl, rfl⟩ := procedureTrace_cases h <;>
    exact List.cons_ne_nil _ _

theorem wakeTrace_sink {x : Slot} (h : x ∈ wakeTrace) : x.sink = .none :=
  writeTrace_sink (img := zeroImage) (List.mem_append_left _ h)

/-- Only `RECVB` delivers a value (R155). -/
theorem procedureTrace_sink {i : Instr} {xs : List Slot} (h : procedureTrace i = some xs) (hi : i ≠ .recvb) :
    ∀ x ∈ xs, x.sink = .none := by
  obtain ⟨b, rfl, rfl⟩ | ⟨rfl, rfl⟩ | ⟨v, rfl, rfl⟩ | ⟨rfl, rfl⟩ | ⟨rfl, rfl⟩ := procedureTrace_cases h
  · simp [wrbitTrace, Slot.plain]
  · simp [rdbitTrace, Slot.plain]
  · exact fun x hx => (sendbTrace_plain hx).1
  · exact absurd rfl hi
  · exact fun x => wakeTrace_sink

/-- No procedure on its own delivers to `IMG` (log entry 9). -/
theorem procedureTrace_sink_ne_toImg {i : Instr} {xs : List Slot} (h : procedureTrace i = some xs) :
    ∀ x ∈ xs, ∀ k, x.sink ≠ .toImg k := by
  by_cases hi : i = .recvb
  · subst hi
    cases h
    simp [recvbTrace, rdbitTrace, Slot.plain, octet]
  · intro x hx k
    rw [procedureTrace_sink h hi x hx]
    exact Sink.noConfusion

/-! ### What performing a trace leaves alone -/

/-- What each entry of a trace keeps, the trace keeps. -/
theorem performAll_keeps {α : Type} {f : State → α} {xs : List Slot}
    (h : ∀ x ∈ xs, ∀ s, f (x.perform s) = f s) (s : State) : f (performAll xs s) = f s := by
  induction xs generalizing s with
  | nil => rfl
  | cons x xs ih =>
    obtain ⟨hx, hxs⟩ := List.forall_mem_cons.mp h
    rw [performAll_cons, ih hxs, hx]

/-- The returned values of the codec functions. -/
def Returned.codecs (r : Returned) : Byte × Byte × Byte × Byte × RegisterImage × CalendarTime :=
  (r.enc, r.dec, r.digHi, r.digLo, r.image, r.calendar)

theorem perform_codecs (x : Slot) (s : State) : (x.perform s).ret.codecs = s.ret.codecs := by
  obtain ⟨u, k⟩ := x
  cases k <;> cases u <;> rfl

theorem performAll_codecs (xs : List Slot) (s : State) : (performAll xs s).ret.codecs = s.ret.codecs :=
  performAll_keeps (f := fun t => t.ret.codecs) (fun x _ => perform_codecs x) s

theorem performAll_img {xs : List Slot} (h : ∀ x ∈ xs, ∀ k, x.sink ≠ .toImg k) (s : State) :
    (performAll xs s).img = s.img := by
  refine performAll_keeps (f := fun t => t.img) (fun x hx s => ?_) s
  have hsink := h x hx
  obtain ⟨u, k⟩ := x
  cases k with
  | toImg k => exact absurd rfl (hsink k)
  | _ => simp [Slot.perform]

theorem performAll_shr {xs : List Slot} (h : ∀ x ∈ xs, x.sink = .none) (s : State) :
    (performAll xs s).shr = s.shr :=
  performAll_keeps (f := fun t => t.shr) (fun x hx s => by simp [Slot.perform, h x hx]) s

theorem performAll_byte {xs : List Slot} (h : ∀ x ∈ xs, x.sink = .none) (s : State) :
    (performAll xs s).ret.byte = s.ret.byte :=
  performAll_keeps (f := fun t => t.ret.byte)
    (fun x hx s => by simp only [Slot.perform, h x hx, deliver_ret, performMicro_ret]; split <;> rfl) s

/-- A trace takes as many draws as it has samples (R130). -/
theorem performAll_draws (xs : List Slot) (s : State) :
    (performAll xs s).drawn = s.drawn + xs.countP (fun x => x.op.samples) ∧
    (performAll xs s).answers = s.answers.drop (xs.countP fun x => x.op.samples) := by
  induction xs generalizing s with
  | nil => simp
  | cons x xs ih =>
    obtain ⟨ihdrawn, ihanswers⟩ := ih (x.perform s)
    obtain ⟨hanswers, hdrawn, -⟩ := perform_draws x s
    rw [performAll_cons, ihdrawn, ihanswers, hanswers, hdrawn, List.countP_cons]
    cases x.op.samples <;> simp [Nat.add_assoc, Nat.add_comm]

/-- Settles O23: `exec` of a procedure performs its trace, whose entries keep all but pins, draws and what is delivered. -/
theorem proceduresFrame : Obligations.ProceduresFrame := by
  intro i xs s t hi ht
  rw [exec_of_procedureTrace hi] at ht
  cases ht
  obtain ⟨hseq, hbusy, hvalid, hkind, hports, hinputs, hticks⟩ := performAll_frame xs s
  have hcodecs := performAll_codecs xs s
  simp only [Returned.codecs, Prod.mk.injEq] at hcodecs
  obtain ⟨henc, hdec, hhi, hlo, himage, hcal⟩ := hcodecs
  have himg := performAll_img (procedureTrace_sink_ne_toImg hi) s
  have hshr (h : i ≠ .recvb) := performAll_shr (procedureTrace_sink hi h) s
  have hbyte (h : i ≠ .recvb) := performAll_byte (procedureTrace_sink hi h) s
  exact ⟨himg, hseq, hbusy, hvalid, hkind, hports, hinputs, hticks, henc, hdec, hhi, hlo, himage, hcal,
    fun h => ⟨hshr h, hbyte h⟩, performAll_draws xs s⟩

/-! ### Where the frames of a cycle stand (10_state.md R16) -/

theorem take_drop_eq {α : Type} {xs ys : List α} {n : Nat} (h : ∀ m < ys.length, xs[n + m]? = ys[m]?) :
    (xs.drop n).take ys.length = ys := by
  apply List.ext_getElem?
  intro m
  rw [List.getElem?_take]
  split
  next hm => rw [List.getElem?_drop, h m hm]
  next hm => rw [List.getElem?_eq_none (by omega)]

theorem readTrace_frame (k : Fin 8) : (readTrace.drop (286 + 27 * k.val)).take 27 = recvbTrace (.toImg k) :=
  take_drop_eq fun _ hm => readTrace_getElem? k hm

theorem writeTrace_frame (img : RegisterImage) (k : Fin 8) :
    ((writeTrace img).drop (286 + 35 * k.val)).take 35 = sendbTrace (img.get k) :=
  take_drop_eq fun _ hm => writeTrace_getElem? img k hm

theorem sendbTrace_op_ne_dqIn {v : Byte} {x : Slot} (h : x ∈ sendbTrace v) : x.op ≠ .dqIn := by
  have key : (sendbTrace v).all (fun x => x.op ≠ .dqIn) = true := rfl
  simpa using List.all_eq_true.mp key x h

theorem recvbTrace_dqIn (k : Sink) : ∀ m < 27, (recvbTrace k)[m]?.map (fun x => x.op) = some .dqIn → m = 0 := by
  have hops : (recvbTrace k).map (fun x => x.op) = (recvbTrace .none).map (fun x => x.op) := rfl
  simp only [← List.getElem?_map, hops]
  decide

theorem primeTrace_dqIn : ∀ n < 6, primeTrace[n]?.map (fun x => x.op) = some .dqIn → n = 1 := by decide

/-- In a read cycle `DQ_IN` stands in the prime frame and where a `RECVB` begins. -/
theorem readTrace_dqIn {n : Nat} (h : readTrace[n]?.map (fun x => x.op) = some .dqIn) :
    n = 1 ∨ ∃ k : Fin 8, n = 286 + 27 * k.val := by
  have hlt : n < 502 := by
    by_contra hge
    rw [List.getElem?_eq_none (by simp; omega)] at h
    cases h
  have hwake (hn : n < 286) : readTrace[n]? = wakeTrace[n]? :=
    List.getElem?_append_left (by rw [wakeTrace_length]; exact hn)
  by_cases hprime : n < 6
  · rw [hwake (by omega), wakeTrace, List.getElem?_append_left hprime] at h
    exact .inl (primeTrace_dqIn n hprime h)
  · by_cases hburst : n < 286
    · obtain ⟨j, m, hm, rfl⟩ : ∃ (j : Fin 8) (m : Nat), m < 35 ∧ n = 6 + 35 * j.val + m :=
        ⟨⟨(n - 6) / 35, by omega⟩, (n - 6) % 35, by omega, by simp only; omega⟩
      rw [hwake hburst, wakeTrace_getElem? j hm, Option.map_eq_some_iff] at h
      obtain ⟨x, hx, hop⟩ := h
      exact absurd hop (sendbTrace_op_ne_dqIn (List.mem_of_getElem? hx))
    · obtain ⟨k, m, hm, rfl⟩ : ∃ (k : Fin 8) (m : Nat), m < 27 ∧ n = 286 + 27 * k.val + m :=
        ⟨⟨(n - 286) / 27, by omega⟩, (n - 286) % 27, by omega, by simp only; omega⟩
      rw [readTrace_getElem? k hm] at h
      exact .inr ⟨k, by rw [recvbTrace_dqIn (.toImg k) m hm h, Nat.add_zero]⟩

/-- Where a piece of a trace has the micro-operations of another trace, it has them entry by entry. -/
theorem op_of_ops {xs ys : List Slot} {n : Nat}
    (h : ((xs.drop n).take ys.length).map (fun x => x.op) = ys.map (fun x => x.op)) {m : Nat} (hm : m < ys.length) :
    xs[n + m]?.map (fun x => x.op) = ys[m]?.map (fun x => x.op) := by
  rw [← List.getElem?_map, ← List.getElem?_map, ← h, List.getElem?_map, List.getElem?_map,
    List.getElem?_take_of_lt hm, List.getElem?_drop]

theorem countOp_of_ops (u : MicroOp) {xs ys : List Slot} (h : xs.map (fun x => x.op) = ys.map (fun x => x.op)) :
    countOp u xs = countOp u ys := by
  have hmap : ∀ zs : List Slot, countOp u zs = (zs.map fun x => x.op).countP fun v => v = u := fun zs => by
    rw [List.countP_map]; rfl
  rw [hmap, hmap, h]

/-- A write cycle holds no `RECVB`: it takes one sample (R222), `RECVB` eight. -/
theorem writeTrace_ops_ne_recvb (img : RegisterImage) (n : Nat) (k : Sink) :
    (((writeTrace img).drop n).take 27).map (fun x => x.op) ≠ (recvbTrace k).map (fun x => x.op) := by
  intro h
  have hpiece : countOp .dqSmp (((writeTrace img).drop n).take 27) = 8 := countOp_of_ops .dqSmp h
  have hsub : (((writeTrace img).drop n).take 27).Sublist (writeTrace img) :=
    (List.take_sublist _ _).trans (List.drop_sublist _ _)
  have hle : countOp .dqSmp (((writeTrace img).drop n).take 27) ≤ countOp .dqSmp (writeTrace img) := hsub.countP_le
  have hone : countOp .dqSmp (writeTrace img) = 1 := by
    have hrow := opCounts_writeTrace img
    simp only [opCounts, List.cons.injEq] at hrow
    obtain ⟨-, -, -, hone, -⟩ := hrow
    exact hone
  omega

/-- Where a read cycle has the micro-operations of `RECVB`, a `RECVB` begins: of the places of `DQ_IN`, the one in the
prime frame is followed by `OE_LO`. -/
theorem readTrace_ops_recvb {n : Nat} {k : Sink}
    (h : ((readTrace.drop n).take 27).map (fun x => x.op) = (recvbTrace k).map (fun x => x.op)) :
    ∃ j : Fin 8, n = 286 + 27 * j.val := by
  have hop {m : Nat} (hm : m < 27) := op_of_ops (ys := recvbTrace k) h hm
  obtain rfl | hj := readTrace_dqIn (hop (m := 0) (by omega))
  · cases hop (m := 1) (by omega)
  · exact hj

/-- In either cycle, the entries with the micro-operations of `RECVB` are a `RECVB` whose byte goes to `IMG`. -/
theorem trace_recvb {s : State} {n : Nat} {k : Sink}
    (h : ((s.trace.drop n).take 27).map (fun x => x.op) = (recvbTrace k).map (fun x => x.op)) :
    ∃ j, (s.trace.drop n).take 27 = recvbTrace (.toImg j) := by
  unfold State.trace at h ⊢
  split at h
  next => exact absurd h (writeTrace_ops_ne_recvb s.img n k)
  next hkind =>
    obtain ⟨j, rfl⟩ := readTrace_ops_recvb h
    exact ⟨j, by simpa [hkind] using readTrace_frame j⟩

/-! ### Traces with the same micro-operations -/

/-- The two states agree on what a micro-operation reads and writes: the pins, the draws and the sampled bit. -/
def AgreeOnLine (s t : State) : Prop :=
  t.pins = s.pins ∧ t.answers = s.answers ∧ t.drawn = s.drawn ∧ t.ret.bit = s.ret.bit

theorem Agree.onLine {s t : State} (h : Agree s t) : AgreeOnLine s t := by
  obtain ⟨hpins, -, -, hanswers, hdrawn, hbit⟩ := h
  exact ⟨hpins, hanswers, hdrawn, hbit⟩

theorem AgreeOnLine.trans {s t u : State} (h : AgreeOnLine s t) (g : AgreeOnLine t u) : AgreeOnLine s u := by
  obtain ⟨hpins, hanswers, hdrawn, hbit⟩ := h
  obtain ⟨gpins, ganswers, gdrawn, gbit⟩ := g
  exact ⟨gpins.trans hpins, ganswers.trans hanswers, gdrawn.trans hdrawn, gbit.trans hbit⟩

theorem AgreeOnLine.perform {s t : State} (h : AgreeOnLine s t) {x y : Slot} (hop : y.op = x.op) :
    AgreeOnLine (x.perform s) (y.perform t) := by
  obtain ⟨hpins, hanswers, hdrawn, hbit⟩ := h
  obtain ⟨xanswers, xdrawn, xbit⟩ := perform_draws x s
  obtain ⟨yanswers, ydrawn, ybit⟩ := perform_draws y t
  have hdraw : t.draw = s.draw := by rw [draw_eq_drawAt, draw_eq_drawAt, drawAt_congr hanswers hdrawn]
  refine ⟨?_, ?_, ?_, ?_⟩
  · rw [perform_pins, perform_pins, hop, hpins]
  · rw [xanswers, yanswers, hop, hanswers]
  · rw [xdrawn, ydrawn, hop, hdrawn]
  · rw [xbit, ybit, hop, hdraw, hbit]

/-- Where the values go does not matter to the line. -/
theorem AgreeOnLine.performAll {xs ys : List Slot} (hops : ys.map (fun x => x.op) = xs.map (fun x => x.op))
    {s t : State} (h : AgreeOnLine s t) : AgreeOnLine (performAll xs s) (performAll ys t) := by
  induction xs generalizing ys s t with
  | nil =>
    obtain rfl : ys = [] := List.map_eq_nil_iff.mp hops
    exact h
  | cons x xs ih =>
    obtain ⟨y, ys, rfl, hop, hops⟩ := List.map_eq_cons_iff.mp hops
    exact ih hops (h.perform hop)

/-- `RECVB` to `IMG[j]` and `RECVB` on its own assemble the same byte in `SHR` (R155, R219). -/
theorem performAll_recvb_shr (j : Fin 8) (s : State) :
    (performAll (recvbTrace (.toImg j)) s).shr = (performAll (recvbTrace .toRet) s).shr := by
  simp [recvbTrace, performAll_append, Slot.perform]

/-- The sink returns the byte in `SHR` (R155, R219). -/
def Sink.returnsByte : Sink → Bool
  | .none | .toShr _ => false
  | .toRet | .toImg _ => true

theorem perform_byte_eq_shr {x : Slot} (h : x.sink.returnsByte = true) (s : State) :
    (x.perform s).ret.byte = (x.perform s).shr := by
  obtain ⟨u, k⟩ := x
  cases k with
  | none | toShr => cases h
  | toRet | toImg => simp [Slot.perform]

theorem performAll_recvb_byte (s : State) :
    (performAll (recvbTrace .toRet) s).ret.byte = (performAll (recvbTrace .toRet) s).shr := by
  rw [recvbTrace, performAll_append, performAll_cons, performAll_nil]
  exact perform_byte_eq_shr rfl _

/-! ### Run steps up to and including the last index of a cycle (45_session_driver.md R212, R223) -/

/-- `m + 1` run steps from index `n`, the last one that of the cycle perhaps. -/
theorem runSteps_through (m : Nat) {s : State} {n : Nat} (hb : s.busy = true) (hs : s.seq = .run n)
    (hn : n + m ≤ lastIndex s.kind) (hr : ∀ j < m + 1, (s.frameAt j).rst = false) :
    ∃ t, runSteps (m + 1) s = .next t ∧ t.kind = s.kind ∧
      (n + m < lastIndex s.kind → t.seq = .run (n + m + 1) ∧ t.busy = true ∧ t.valid = s.valid) ∧
      (n + m = lastIndex s.kind → t.seq = .idle ∧ t.busy = false ∧ t.valid = true) ∧
      Agree (performAll ((s.trace.drop n).take (m + 1)) s) t ∧
      (∀ x, s.trace[n + m]? = some x → x.sink.returnsByte = true → t.ret.byte = t.shr) := by
  obtain ⟨x, hx⟩ : ∃ x, s.trace[n + m]? = some x :=
    ⟨_, List.getElem?_eq_getElem (by rw [trace_length]; omega)⟩
  obtain ⟨u, hu, useq, ubusy, uvalid, ukind, utrace, uframe, uagree⟩ :=
    runSteps_running m hb hs hn fun j hj => hr j (by omega)
  have hur : u.nextFrame.rst = false := by
    rw [nextFrame_eq_frameAt, uframe]
    exact hr _ (by omega)
  have hstep := step_of_run hur ubusy useq (by rw [utrace]; exact hx)
  obtain ⟨-, fbusy, fvalid, fkind, -⟩ := perform_frame x (takeInputs u)
  have hkind : (x.perform (takeInputs u)).kind = s.kind := fkind.trans ukind
  refine ⟨_, by rw [runSteps_add m 1 hu]; exact runSteps_succ 0 hstep, ?_, fun hlt => ?_, fun hlast => ?_, ?_,
    fun y hy hk => ?_⟩
  · simp [hkind]
  · simp [settled, hkind, fbusy, fvalid, ubusy, uvalid, hlt.ne]
  · simp [settled, hkind, hlast]
  · have htake : (s.trace.drop n).take (m + 1) = (s.trace.drop n).take m ++ [x] := by
      rw [List.take_add_one, List.getElem?_drop, hx]
      rfl
    rw [htake, performAll_append]
    exact (((uagree.trans (agree_takeInputs u)).perform x).trans (agree_advance _ _)).trans (agree_settled _)
  · obtain rfl : x = y := Option.some.inj (hx.symm.trans hy)
    simpa [settled] using perform_byte_eq_shr hk (takeInputs u)

/-- Settles O53: run steps perform the entries of the cycle, which have the procedure's micro-operations; for `RECVB` they
are a `RECVB` of the cycle. -/
theorem sequencerPerformsProcedures : Obligations.SequencerPerformsProcedures := by
  intro i xs s u n hi hb hs hn hops hr hu
  rw [exec_of_procedureTrace hi] at hu
  cases hu
  obtain ⟨m, hm⟩ := Nat.exists_eq_add_one.mpr (List.length_pos_of_ne_nil (procedureTrace_ne_nil hi))
  rw [hm] at hn hops hr ⊢
  obtain ⟨t, ht, tkind, trun, tidle, tagree, tbyte⟩ := runSteps_through m hb hs (by omega) hr
  obtain ⟨tpins, tanswers, tdrawn, tbit⟩ := ((Agree.refl s).onLine.performAll hops).trans tagree.onLine
  refine ⟨t, ht, tkind, fun h => trun (by omega), fun h => tidle (by omega), tpins, tanswers, tdrawn, tbit, ?_⟩
  rintro rfl
  cases hi
  obtain rfl : m = 26 := by cases hm; rfl
  obtain ⟨j, hj⟩ := trace_recvb hops
  obtain ⟨-, -, tshr, -⟩ := tagree
  rw [hj, performAll_recvb_shr] at tshr
  have hlast : s.trace[n + 26]? = some ⟨.ceHi, .toImg j⟩ := by
    rw [← List.getElem?_drop, ← List.getElem?_take_of_lt (show 26 < 26 + 1 by omega), hj]
    rfl
  exact ⟨tshr, by rw [performAll_recvb_byte, ← tshr]; exact tbyte _ hlast rfl⟩

end Sys2Proof.Machine

/-! ## Placed operations (30_encoding.md R80; 45_session_driver.md R211; log entry 7) -/

namespace Sys2Proof.Machine

theorem withFetchWord_of_decoded {nbits w : Nat} {i : Instr} (h : decodeTableWord nbits w = some i) (s : State) :
    s.withFetchWord nbits w = s.place i := by
  simp [State.withFetchWord, h]

/-! ### A machine placed at an idle step -/

/-- The step of a machine placed at the levels `p` is the idle step that sees them. -/
theorem step_placeIdle {p : InputFrame} (hp : p.rst = false) (s : State) :
    step (s.placeIdle p) = .next (settled (accepted p (takeInputs (s.placeIdle p)))) :=
  step_eq_accepted hp rfl

theorem fetch_placeIdle (p : InputFrame) (s : State) :
    (takeInputs (s.placeIdle p)).fetch = some (commandOf p) := rfl

/-! ### A machine placed at a run step -/

/-- The trace of the cycle that a machine is placed in. -/
theorem placeRun_trace (s : State) (k : Bool) (img : RegisterImage) (n : Nat) :
    (s.placeRun k img n).trace = if k then writeTrace img else readTrace := rfl

theorem step_placeRun {k : Bool} {n : Nat} (hn : n ≤ lastIndex k) (s : State) (img : RegisterImage) :
    ∃ t, step (s.placeRun k img n) = .next t := by
  have hlt : n < (s.placeRun k img n).trace.length := by rw [trace_length]; exact Nat.lt_succ_of_le hn
  exact ⟨_, step_of_run rfl rfl rfl (List.getElem?_eq_getElem hlt)⟩

theorem fetch_placeRun (s : State) (k : Bool) (img : RegisterImage) (n : Nat) :
    (takeInputs (s.placeRun k img n)).fetch =
      ((if k then writeTrace img else readTrace)[n]?.map fun x => x.op).map MicroOp.instr := by
  rw [Option.map_map]
  rfl

/-- What is placed: an idle step without reset, or an index of a cycle. -/
theorem place_cases (s : State) (i : Instr) :
    (∃ (s' : State) (p : InputFrame), p.rst = false ∧ s.place i = s'.placeIdle p) ∨
    ∃ k img n, n ≤ lastIndex k ∧ s.place i = s.placeRun k img n := by
  cases i with
  | nop | rdcyc | wrcyc | bcdenc | bcddec | digpair | regenc | regdec => exact .inl ⟨_, _, rfl, rfl⟩
  | _ => exact .inr ⟨_, _, _, by decide, rfl⟩

theorem step_place (s : State) (i : Instr) : ∃ t, step (s.place i) = .next t := by
  obtain ⟨s', p, hp, hplace⟩ | ⟨k, img, n, hn, hplace⟩ := place_cases s i <;> rw [hplace]
  · exact ⟨_, step_placeIdle hp s'⟩
  · exact step_placeRun hn s img

/-! ### The rows class by class -/

theorem fetch_place_command (s : State) (ct : CalendarTime) :
    ∀ i ∈ [Instr.nop, .rdcyc, .wrcyc ct], (takeInputs (s.place i)).fetch = some i := by
  have hwrcyc : commandOf { quietFrame with cmd := 2, ctIn := ct.toPort } = .wrcyc ct :=
    congrArg Instr.wrcyc (ofPort_toPort ct)
  simp only [List.forall_mem_cons, List.not_mem_nil, false_implies, implies_true, and_true]
  exact ⟨rfl, rfl, congrArg some hwrcyc⟩

theorem bitOf_bitByte (b : Bool) : bitOf (bitByte b) 0 = b := by cases b <;> rfl

/-- The first bit of the first byte of a write burst. -/
theorem writeTrace_firstBit (b : Bool) {m : Nat} (hm : m < 4) :
    (writeTrace (firstByte (bitByte b)))[288 + m]? = (wrbitTrace b)[m]? := by
  have hbyte := writeTrace_getElem? (firstByte (bitByte b)) 0 (n := 2 + m) (by omega)
  have hbit : (sendbTrace (bitByte b))[2 + m]? = (wrbitTrace (bitOf (bitByte b) 0))[m]? := by
    interval_cases m <;> rfl
  rw [bitOf_bitByte] at hbit
  exact (congrArg _ (by omega)).trans (hbyte.trans hbit)

theorem fetch_place_micro (s : State) (m : MicroOp) : (takeInputs (s.place m.instr)).fetch = some m.instr := by
  cases m with
  | dqDrv b =>
    refine (fetch_placeRun s true _ 289).trans ?_
    rw [if_pos rfl, writeTrace_firstBit b (m := 1) (by omega)]
    rfl
  | _ => rfl

/-- Where a procedure is placed, its micro-operations are the next ones of the cycle (R16). -/
theorem place_procedure {i : Instr} {xs : List Slot} (h : procedureTrace i = some xs) (s : State) :
    ∃ k img n, s.place i = s.placeRun k img n ∧
      (((if k then writeTrace img else readTrace).drop n).take xs.length).map (fun x => x.op) =
        xs.map (fun x => x.op) := by
  obtain ⟨b, rfl, rfl⟩ | ⟨rfl, rfl⟩ | ⟨v, rfl, rfl⟩ | ⟨rfl, rfl⟩ | ⟨rfl, rfl⟩ := procedureTrace_cases h
  · exact ⟨true, _, 288, rfl, congrArg _ (take_drop_eq fun _ hm => writeTrace_firstBit b hm)⟩
  · exact ⟨false, _, 2, rfl, rfl⟩
  · exact ⟨true, _, 286, rfl, congrArg _ (writeTrace_frame (firstByte v) 0)⟩
  · exact ⟨false, _, 286, rfl, (congrArg (List.map _) (readTrace_frame 0)).trans rfl⟩
  · exact ⟨false, _, 0, rfl, congrArg _ List.take_left⟩

/-- The first micro-operation of a placed procedure is what the step fetches. -/
theorem fetch_place_procedure {i : Instr} {xs : List Slot} (h : procedureTrace i = some xs) (s : State) :
    (takeInputs (s.place i)).fetch = xs.head?.map (fun x => x.op.instr) ∧
    ∃ n, (s.place i).seq = .run n ∧
      (((s.place i).trace.drop n).take xs.length).map (fun x => x.op) = xs.map (fun x => x.op) := by
  obtain ⟨k, img, n, hplace, hops⟩ := place_procedure h s
  rw [hplace]
  refine ⟨?_, n, rfl, hops⟩
  have hfirst := op_of_ops hops (List.length_pos_of_ne_nil (procedureTrace_ne_nil h))
  rw [Nat.add_zero, ← List.head?_eq_getElem?] at hfirst
  rw [fetch_placeRun, hfirst, Option.map_map]
  rfl

/-- Settles O9, class by class: a command and a codec function in an idle step, a micro-operation and a procedure at an
index of a cycle. -/
theorem placedRowsRunNext : Obligations.PlacedRowsRunNext := by
  refine ⟨by decide, fun s _ _ _ h => withFetchWord_of_decoded h s, fun s => ⟨step_place s, fetch_place_command s,
    fetch_place_micro s, fun i xs h => fetch_place_procedure h s, fun d => ?_, fun b => ?_, fun b => ?_, fun ct => ?_,
    fun img => ?_⟩⟩
  · exact ⟨_, step_placeIdle rfl s, rfl⟩
  · exact ⟨_, step_placeIdle rfl s, rfl⟩
  · exact ⟨_, step_placeIdle rfl s, rfl, rfl⟩
  · have himage : regEnc (CalendarTime.ofPort ct.toPort) = regEnc ct := by rw [ofPort_toPort]
    exact ⟨_, step_placeIdle rfl s, himage, himage⟩
  · exact ⟨_, step_placeIdle rfl _, rfl, rfl⟩

end Sys2Proof.Machine

/-! ## The combinational codecs in every step (40_bcd_codec.md R100; 10_state.md R20; 44_register_codec.md R185) -/

namespace Sys2Proof.Machine

/-- Settles O14: a step ends in the codec evaluation, and on the ports stand the levels of that step. -/
theorem codecPortsInEveryStep : Obligations.CodecPortsInEveryStep := by
  intro s t h
  have hports := step_ports h
  obtain ⟨u, -, rfl⟩ := stepOnce_cases h
  rw [← hports]
  exact ⟨rfl, rfl, rfl, rfl, rfl, rfl, rfl, rfl, rfl, rfl, rfl⟩

end Sys2Proof.Machine

/-! ## The codec functions through `exec` (40_bcd_codec.md R100; 44_register_codec.md R185) -/

namespace Sys2Proof.Machine

theorem exec_bcdenc (d : Byte) (s : State) :
    exec (.bcdenc d) s = .next { s with ret := { s.ret with enc := bcdEnc d } } := rfl

theorem exec_bcddec (b : Byte) (s : State) :
    exec (.bcddec b) s = .next { s with ret := { s.ret with dec := bcdDec b } } := rfl

theorem exec_digpair (b : Byte) (s : State) :
    exec (.digpair b) s = .next { s with ret := { s.ret with digHi := digHi b, digLo := digLo b } } := rfl

theorem exec_regenc (ct : CalendarTime) (s : State) :
    exec (.regenc ct) s = .next { s with ret := { s.ret with image := regEnc ct } } := rfl

theorem exec_regdec (img : RegisterImage) (s : State) :
    exec (.regdec img) s = .next { s with ret := { s.ret with calendar := regDec img } } := rfl

/-- All that a codec function can do: change a returned value other than the bit and the byte of the transports. -/
theorem exec_codec {i : Instr}
    (hi : (∃ d, i = .bcdenc d) ∨ (∃ b, i = .bcddec b) ∨ (∃ b, i = .digpair b) ∨ (∃ ct, i = .regenc ct) ∨
      ∃ img, i = .regdec img) (s : State) :
    ∃ r : Returned, exec i s = .next { s with ret := r } ∧ r.bit = s.ret.bit ∧ r.byte = s.ret.byte := by
  obtain ⟨d, rfl⟩ | ⟨b, rfl⟩ | ⟨b, rfl⟩ | ⟨ct, rfl⟩ | ⟨img, rfl⟩ := hi
  · exact ⟨_, exec_bcdenc d s, rfl, rfl⟩
  · exact ⟨_, exec_bcddec b s, rfl, rfl⟩
  · exact ⟨_, exec_digpair b s, rfl, rfl⟩
  · exact ⟨_, exec_regenc ct s, rfl, rfl⟩
  · exact ⟨_, exec_regdec img s, rfl, rfl⟩

/-- Settles O35: a codec function changes returned values only. -/
theorem codecFunctionsFrame : Obligations.CodecFunctionsFrame := by
  intro i s t hi ht
  obtain ⟨r, hexec, hbit, hbyte⟩ := exec_codec hi s
  rw [hexec] at ht
  cases ht
  exact ⟨⟨rfl, rfl, rfl, rfl, rfl, rfl, rfl⟩, rfl, rfl, rfl, rfl, rfl, hbit, hbyte⟩

end Sys2Proof.Machine

/-! ## The BCD codec as arithmetic on the byte's value (40_bcd_codec.md R101 to R108) -/

namespace Sys2Proof.Machine

theorem bcdEnc_toNat (d : Byte) : (bcdEnc d).toNat = (d.toNat / 10 * 16 + d.toNat % 10) % 256 :=
  BitVec.toNat_ofNat _ _

/-- R105: no result of `BCDDEC` is truncated. -/
theorem bcdDec_toNat (b : Byte) : (bcdDec b).toNat = b.toNat / 16 * 10 + b.toNat % 16 := by
  have hb := b.isLt
  rw [bcdDec, BitVec.toNat_ofNat]
  omega

theorem digHi_toNat (b : Byte) : (digHi b).toNat = 0x30 + b.toNat / 16 := by
  have hb := b.isLt
  rw [digHi, digit, BitVec.toNat_ofNat]
  omega

theorem digLo_toNat (b : Byte) : (digLo b).toNat = 0x30 + b.toNat % 16 := by
  rw [digLo, digit, BitVec.toNat_ofNat]
  omega

theorem validBcd_iff (b : Byte) : validBcd b = true ↔ b.toNat / 16 ≤ 9 ∧ b.toNat % 16 ≤ 9 := by
  simp [validBcd]

/-- R102: the low nibble of `BCDENC(d)` is the units digit, for every byte. -/
theorem bcdEnc_toNat_mod (d : Byte) : (bcdEnc d).toNat % 16 = d.toNat % 10 := by
  rw [bcdEnc_toNat]
  omega

/-- R102: the high nibble of `BCDENC(d)` holds the tens, modulo 16. -/
theorem bcdEnc_toNat_div (d : Byte) : (bcdEnc d).toNat / 16 = d.toNat / 10 % 16 := by
  rw [bcdEnc_toNat]
  omega

/-- The two nibbles of `BCDENC(d)` together. -/
theorem bcdEnc_toNat_eq_nibbles (d : Byte) : (bcdEnc d).toNat = d.toNat / 10 % 16 * 16 + d.toNat % 10 := by
  rw [← bcdEnc_toNat_div, ← bcdEnc_toNat_mod, Nat.div_add_mod']

/-- On a byte whose low nibble is a digit, `BCDDEC` has the two nibbles as its tens and units. -/
theorem bcdDec_toNat_div_mod {b : Byte} (h : b.toNat % 16 ≤ 9) :
    (bcdDec b).toNat / 10 = b.toNat / 16 ∧ (bcdDec b).toNat % 10 = b.toNat % 16 := by
  rw [bcdDec_toNat]
  omega

end Sys2Proof.Machine

/-! ## The inverse laws of the BCD codec (40_bcd_codec.md R106) -/

namespace Sys2Proof.Machine

/-- What encoding and decoding loses: the high nibble counts 16 tens. -/
theorem bcdDec_bcdEnc_toNat (d : Byte) : (bcdDec (bcdEnc d)).toNat = d.toNat % 160 := by
  rw [bcdDec_toNat, bcdEnc_toNat_div, bcdEnc_toNat_mod]
  omega

theorem bcdDec_bcdEnc_eq_iff (d : Byte) : bcdDec (bcdEnc d) = d ↔ d.toNat ≤ 159 := by
  rw [← BitVec.toNat_inj, bcdDec_bcdEnc_toNat]
  omega

theorem bcdEnc_bcdDec_eq_iff (b : Byte) : bcdEnc (bcdDec b) = b ↔ b.toNat % 16 ≤ 9 := by
  constructor
  · intro h
    have hlow := bcdEnc_toNat_mod (bcdDec b)
    rw [h] at hlow
    omega
  · intro h
    obtain ⟨htens, hunits⟩ := bcdDec_toNat_div_mod h
    have hb := b.isLt
    apply BitVec.eq_of_toNat_eq
    rw [bcdEnc_toNat, htens, hunits]
    omega

/-- Settles O29: `BCDDEC(BCDENC(d))` is `d % 160`, and `BCDENC(BCDDEC(b))` has a digit as its low nibble. -/
theorem bcdInverseLaws : Obligations.BcdInverseLaws := by
  refine ⟨fun d hd => (bcdDec_bcdEnc_eq_iff d).mpr hd, fun d hd h => ?_, by decide,
    fun b hb => (bcdEnc_bcdDec_eq_iff b).mpr hb, fun b hb h => ?_, by decide⟩
  · have hle := (bcdDec_bcdEnc_eq_iff d).mp h
    omega
  · have hlow := (bcdEnc_bcdDec_eq_iff b).mp h
    omega

end Sys2Proof.Machine

/-! ## The three functions of the BCD codec on every byte (40_bcd_codec.md R101 to R110) -/

namespace Sys2Proof.Machine

/-- R102, R106: `BCDENC` is injective where `BCDDEC` undoes it. -/
theorem bcdEnc_injOn {d e : Byte} (hd : d.toNat ≤ 159) (he : e.toNat ≤ 159) (h : bcdEnc d = bcdEnc e) : d = e := by
  rw [← (bcdDec_bcdEnc_eq_iff d).mpr hd, h, (bcdDec_bcdEnc_eq_iff e).mpr he]

/-- R105, R106: `BCDDEC` is injective where `BCDENC` undoes it. -/
theorem bcdDec_injOn {b c : Byte} (hb : b.toNat % 16 ≤ 9) (hc : c.toNat % 16 ≤ 9) (h : bcdDec b = bcdDec c) : b = c := by
  rw [← (bcdEnc_bcdDec_eq_iff b).mpr hb, h, (bcdEnc_bcdDec_eq_iff c).mpr hc]

/-- Settles O27, from the two nibbles of `BCDENC(d)` and its inverse on `0..159`. -/
theorem bcdencOnEveryByte : Obligations.BcdencOnEveryByte := by
  refine ⟨fun d s => ⟨rfl, exec_bcdenc d s⟩, bcdEnc_toNat, fun d hd => ?_, fun d hd => ⟨?_, bcdEnc_toNat_mod d⟩,
    fun d _ => bcdEnc_toNat_eq_nibbles d, bcdEnc_toNat_mod, fun _ _ => bcdEnc_injOn, by decide⟩
  · rw [validBcd_iff, bcdEnc_toNat_div, bcdEnc_toNat_mod]
    omega
  · rw [bcdEnc_toNat_div]
    omega

/-- Settles O28, from the untruncated sum and the inverse on valid packed BCD. -/
theorem bcddecOnEveryByte : Obligations.BcddecOnEveryByte := by
  refine ⟨fun b s => ⟨rfl, exec_bcddec b s⟩, fun b => ⟨bcdDec_toNat b, ?_⟩, fun b c hb hc => ?_, by decide⟩
  · have hb := b.isLt
    rw [bcdDec_toNat]
    omega
  · exact bcdDec_injOn ((validBcd_iff b).mp hb).2 ((validBcd_iff c).mp hc).2

/-- R107, R108: the pair of characters determines the byte. -/
theorem eq_of_digits_eq {b c : Byte} (hhi : digHi b = digHi c) (hlo : digLo b = digLo c) : b = c := by
  rw [← BitVec.toNat_inj, digHi_toNat, digHi_toNat] at hhi
  rw [← BitVec.toNat_inj, digLo_toNat, digLo_toNat] at hlo
  apply BitVec.eq_of_toNat_eq
  omega

/-- R110: where the low nibble is a digit, the characters are the tens and units of `BCDDEC`. -/
theorem digits_eq_bcdDec {b : Byte} (h : b.toNat % 16 ≤ 9) :
    (digHi b).toNat = 0x30 + (bcdDec b).toNat / 10 ∧ (digLo b).toNat = 0x30 + (bcdDec b).toNat % 10 := by
  obtain ⟨htens, hunits⟩ := bcdDec_toNat_div_mod h
  exact ⟨by rw [digHi_toNat, htens], by rw [digLo_toNat, hunits]⟩

/-- Settles O30, character by character. -/
theorem digpairMapsNibbles : Obligations.DigpairMapsNibbles :=
  ⟨fun b s => ⟨rfl, exec_digpair b s⟩, fun b => ⟨digHi_toNat b, digLo_toNat b⟩, fun _ _ => eq_of_digits_eq,
    fun b hb => digits_eq_bcdDec ((validBcd_iff b).mp hb).2, by decide⟩

end Sys2Proof.Machine

/-! ## Nothing that is read steers the sequencer (41_bit_transport.md R131; 45_session_driver.md R218, R224) -/

namespace Sys2Proof.Machine

/-- The two states agree on what steers the sequencer: the control elements of R10, the host's frames to come, and `IMG`
while the current cycle is a write, which alone sends it (R224). -/
def SteeredAlike (s s' : State) : Prop :=
  SameControl s s' ∧ s'.inputs = s.inputs ∧ s'.ticks = s.ticks ∧ (s.kind = true → s'.img = s.img)

/-- What a step from any state can do, and when (R211): reset, look at `cmd`, or perform the micro-operation at `SEQ`. -/
theorem step_cases {s t : State} (ht : step s = .next t) :
    (s.nextFrame.rst = true ∧ t = settled (resetBlock (takeInputs s))) ∨
    (s.nextFrame.rst = false ∧ s.busy = false ∧ t = settled (accepted s.nextFrame (takeInputs s))) ∨
    (s.nextFrame.rst = false ∧ s.busy = true ∧ ∃ n x, s.seq = .run n ∧ s.trace[n]? = some x ∧
      t = settled (advance n (x.perform (takeInputs s)))) := by
  obtain ⟨u, hu, rfl⟩ := stepOnce_cases ht
  obtain ⟨hr, rfl⟩ | ⟨hr, hb, he⟩ | ⟨hr, hb, x, hx, rfl⟩ := act_cases hu
  · exact .inl ⟨hr, rfl⟩
  · rw [exec_command_of_idle _ hb] at he
    cases he
    exact .inr (.inl ⟨hr, hb, rfl⟩)
  · unfold State.slot at hx
    split at hx
    next => cases hx
    next n hn => exact .inr (.inr ⟨hr, hb, n, x, hn, hx, by rw [hn]; rfl⟩)

/-- An entry of a write cycle leaves the image it sends (R61). -/
theorem perform_img_of_write {x : Slot} {s : State} (hk : s.kind = true) (hx : x ∈ s.trace) :
    (x.perform s).img = s.img := by
  have hsink : x.sink = .none := writeTrace_sink (img := s.img) (by simpa [State.trace, hk] using hx)
  simp [Slot.perform, hsink]

namespace SteeredAlike

variable {s s' : State}

theorem nextFrame (h : SteeredAlike s s') : s'.nextFrame = s.nextFrame := by
  obtain ⟨-, hinputs, hticks, -⟩ := h
  rw [nextFrame_eq_frameAt, nextFrame_eq_frameAt, frameAt_congr hinputs hticks]

theorem trace (h : SteeredAlike s s') : s'.trace = s.trace := by
  obtain ⟨⟨-, -, -, -, hkind⟩, -, -, himg⟩ := h
  cases hk : s.kind with
  | false => simp [State.trace, hkind, hk]
  | true => simp [State.trace, hkind, hk, himg hk]

theorem takeInputs (h : SteeredAlike s s') : SteeredAlike (takeInputs s) (takeInputs s') := by
  obtain ⟨hctl, hinputs, hticks, himg⟩ := h
  exact ⟨hctl, by simp [hinputs], by simp [hticks], himg⟩

theorem settled (h : SteeredAlike s s') : SteeredAlike (settled s) (settled s') := h

theorem resetBlock (h : SteeredAlike s s') : SteeredAlike (resetBlock s) (resetBlock s') := by
  obtain ⟨-, hinputs, hticks, -⟩ := h
  exact ⟨⟨rfl, rfl, rfl, rfl, rfl⟩, hinputs, hticks, fun hk => by cases hk⟩

/-- An accepted write latches the same image in both, and an accepted read makes the image irrelevant. -/
theorem accepted (h : SteeredAlike s s') (p : InputFrame) : SteeredAlike (accepted p s) (accepted p s') := by
  obtain ⟨⟨hpins, hseq, hbusy, hvalid, hkind⟩, hinputs, hticks, himg⟩ := h
  unfold Machine.accepted
  split_ifs
  · exact ⟨⟨hpins, rfl, rfl, rfl, rfl⟩, hinputs, hticks, fun hk => by cases hk⟩
  · exact ⟨⟨hpins, rfl, rfl, rfl, rfl⟩, hinputs, hticks, fun _ => rfl⟩
  · exact ⟨⟨hpins, hseq, hbusy, hvalid, hkind⟩, hinputs, hticks, himg⟩

theorem perform (h : SteeredAlike s s') {x : Slot} (hx : x ∈ s.trace) :
    SteeredAlike (x.perform s) (x.perform s') := by
  have hx' : x ∈ s'.trace := h.trace ▸ hx
  obtain ⟨⟨hpins, hseq, hbusy, hvalid, hkind⟩, hinputs, hticks, himg⟩ := h
  obtain ⟨fseq, fbusy, fvalid, fkind, -, finputs, fticks⟩ := perform_frame x s
  obtain ⟨gseq, gbusy, gvalid, gkind, -, ginputs, gticks⟩ := perform_frame x s'
  refine ⟨⟨by simp [hpins], by rw [gseq, fseq, hseq], by rw [gbusy, fbusy, hbusy], by rw [gvalid, fvalid, hvalid],
    by rw [gkind, fkind, hkind]⟩, by rw [ginputs, finputs, hinputs], by rw [gticks, fticks, hticks], fun hk => ?_⟩
  rw [fkind] at hk
  rw [perform_img_of_write (hkind.trans hk) hx', perform_img_of_write hk hx, himg hk]

theorem advance (h : SteeredAlike s s') (n : Nat) : SteeredAlike (advance n s) (advance n s') := by
  obtain ⟨⟨hpins, -, hbusy, hvalid, hkind⟩, hinputs, hticks, himg⟩ := h
  exact ⟨⟨by simp [hpins], by simp [hkind], by simp [hbusy, hkind], by simp [hvalid, hkind], by simp [hkind]⟩,
    by simp [hinputs], by simp [hticks], by simpa using himg⟩

end SteeredAlike

/-- Settles O52, by the three cases of a step: the second machine is in the same case, and each thing a step does keeps
the agreement. -/
theorem drawsSteerNothing : Obligations.DrawsSteerNothing := by
  intro s s' t hctl hinputs hticks himg ht
  have h : SteeredAlike s s' := ⟨hctl, hinputs, hticks, himg⟩
  obtain ⟨-, hseq, hbusy, -⟩ := hctl
  obtain ⟨hr, rfl⟩ | ⟨hr, hb, rfl⟩ | ⟨hr, hb, n, x, hs, hx, rfl⟩ := step_cases ht <;> rw [← h.nextFrame] at hr
  · exact ⟨_, step_of_reset hr, h.takeInputs.resetBlock.settled⟩
  · refine ⟨_, step_eq_accepted hr (hbusy.trans hb), ?_⟩
    rw [h.nextFrame]
    exact (h.takeInputs.accepted _).settled
  · refine ⟨_, step_of_run hr (hbusy.trans hb) (hseq.trans hs) (h.trace ▸ hx), ?_⟩
    exact ((h.takeInputs.perform (List.mem_of_getElem? hx)).advance n).settled

end Sys2Proof.Machine

/-! ## Redundant writes (41_bit_transport.md R137; 00_scope.md R6) -/

namespace Sys2Proof.Machine

/-- The changes along two traces, one after the other. -/
theorem changes_film_append (xs : List Slot) (p : Pins) (gs : List Glimpse) :
    changes p (film xs p ++ gs) = changes p (film xs p) ++ changes (pinsAfter xs p) gs := by
  induction xs generalizing p with
  | nil => rfl
  | cons x xs ih =>
    by_cases hp : x.op.onPins p = p
    · simpa [changes, hp] using ih p
    · simpa [changes, hp] using ih (x.op.onPins p)

/-- The sample positions along two traces: those of the second count on from the changes of the first. -/
theorem positionsFrom_film_append (n : Nat) (xs : List Slot) (p : Pins) (gs : List Glimpse) :
    positionsFrom n p (film xs p ++ gs) =
      positionsFrom n p (film xs p) ++ positionsFrom (n + (changes p (film xs p)).length) (pinsAfter xs p) gs := by
  induction xs generalizing n p with
  | nil => rfl
  | cons x xs ih =>
    have hcount :
        (if x.op.onPins p = p then n else n + 1) + (changes (x.op.onPins p) (film xs (x.op.onPins p))).length =
        n + (changes p (film (x :: xs) p)).length := by
      by_cases hp : x.op.onPins p = p
      · simp [changes, hp]
      · simp [changes, hp]; omega
    simp only [film_cons, List.cons_append, positionsFrom, pinsAfter_cons]
    rw [ih, hcount, film_cons]
    split <;> rfl

theorem waveform_append (xs ys : List Slot) (p : Pins) :
    waveform (xs ++ ys) p = waveform xs p ++ changes (pinsAfter xs p) (film ys (pinsAfter xs p)) := by
  rw [waveform, filmWaveform, film_append, changes_film_append]
  rfl

theorem samplePositions_append (xs ys : List Slot) (p : Pins) :
    samplePositions (xs ++ ys) p = samplePositions xs p ++
      positionsFrom (changes p (film xs p)).length (pinsAfter xs p) (film ys (pinsAfter xs p)) := by
  rw [samplePositions, filmPositions, film_append, positionsFrom_film_append, Nat.zero_add]
  rfl

/-- Settles O43: what comes before the entry is seen as before, and the entry's own glimpse is still. -/
theorem redundantWritesAreInvisible : Obligations.RedundantWritesAreInvisible := by
  intro xs ys x p hstill
  refine ⟨?_, fun hsamples => ?_⟩
  · rw [waveform_append, waveform_append, film_cons, hstill]
    simp [changes]
  · rw [samplePositions_append, samplePositions_append, film_cons, hstill, hsamples, positionsFrom_still]

/-- Settles O49: what `State.Inv.issuedAt` says of these four micro-operations. -/
theorem sequencerIssueConditions : Obligations.SequencerIssueConditions := by
  intro s n x h hs hx
  have hissued := h.issuedAt hs hx
  refine ⟨fun hop => ?_, fun hop => ?_, fun b hop => ?_, fun hop => ?_⟩ <;> rw [hop] at hissued
  · exact hissued
  · exact hissued
  · exact hissued
  · obtain ⟨hce, hoe, hdir, -⟩ := hissued
    exact ⟨hce, hdir, hoe⟩

end Sys2Proof.Machine

/-! ## The ten micro-operations through `exec` (41_bit_transport.md R120 to R131) -/

namespace Sys2Proof.Machine

/-- A micro-operation that does not sample writes the pins and nothing else (R120). -/
theorem exec_of_not_samples {u : MicroOp} (h : u.samples = false) (s : State) :
    exec u.instr s = .next { s with pins := u.onPins s.pins } := by
  rw [exec_micro]
  simp [performMicro, h]

theorem exec_dqSmp (s : State) : exec .dqSmp s = .next (sample s) := rfl

theorem sample_of_listed {s : State} {b : Bool} {rest : List Bool} (h : s.answers = b :: rest) :
    sample s = { s with answers := rest, drawn := s.drawn + 1, ret := { s.ret with bit := b } } := by
  simp [sample, State.draw, h]

theorem sample_of_free {s : State} (h : s.answers = []) :
    sample s = { s with drawn := s.drawn + 1, ret := { s.ret with bit := Config.freeDraw s.drawn } } := by
  simp [sample, State.draw, h]

/-- Settles O15: none of the nine samples, so each is `exec_of_not_samples` with its own pin field. -/
theorem pinWrites : Obligations.PinWrites := by
  refine ⟨by decide, fun p => rfl, fun s => ⟨?_, ?_, ?_, ?_, ?_, ?_, ?_, ?_, fun b => ?_⟩⟩
  · exact exec_of_not_samples (u := .ceLo) rfl s
  · exact exec_of_not_samples (u := .ceHi) rfl s
  · exact exec_of_not_samples (u := .oeLo) rfl s
  · exact exec_of_not_samples (u := .oeHi) rfl s
  · exact exec_of_not_samples (u := .weLo) rfl s
  · exact exec_of_not_samples (u := .weHi) rfl s
  · exact exec_of_not_samples (u := .dqIn) rfl s
  · exact exec_of_not_samples (u := .dqOut) rfl s
  · exact exec_of_not_samples (u := .dqDrv b) rfl s

/-- Settles O16: the draw is the next listed answer, or the free one. -/
theorem sampleTakesOneDraw : Obligations.SampleTakesOneDraw := fun s =>
  ⟨fun _ _ h => by rw [exec_dqSmp, sample_of_listed h], fun h => by rw [exec_dqSmp, sample_of_free h]⟩

/-- Settles O17: a micro-operation that does not sample writes the pins alone, and `DQ_SMP` the draws and the bit alone. -/
theorem microOperationsFrame : Obligations.MicroOperationsFrame := by
  intro m s t ht
  cases hm : m.samples with
  | false =>
    rw [exec_of_not_samples hm] at ht
    cases ht
    simp
  | true =>
    obtain rfl := (samples_iff m).mp hm
    obtain rfl : sample s = t := Host.Outcome.next.inj ht
    simp

end Sys2Proof.Machine

/-! ## The two bit procedures (41_bit_transport.md R132 to R134) -/

namespace Sys2Proof.Machine

/-- R132: the line is left an output at level `b`, write-enable high. -/
theorem exec_wrbit (b : Bool) (s : State) :
    exec (.wrbit b) s = .next { s with pins := { s.pins with dqDir := true, dqOut := b, weN := true } } := rfl

/-- R54, R132: an enabled chip takes the driven bit at the fall of `we_n`. -/
theorem committed_wrbitTrace_of_enabled (b : Bool) {p : Pins} (hce : p.ceN = false) (hwe : p.weN = true) :
    committed (wrbitTrace b) p = [some b] := by
  simp [committed, wrbitTrace, Slot.plain, filmCommitted, MicroOp.onPins, Pins.drives, hce, hwe]

/-- R134: a chip that is not enabled takes nothing. -/
theorem committed_wrbitTrace_of_disabled (b : Bool) {p : Pins} (hce : p.ceN = true) :
    committed (wrbitTrace b) p = [] := by
  simp [committed, wrbitTrace, Slot.plain, filmCommitted, MicroOp.onPins, hce]

/-- R133: output-enable is left high, and one draw is taken and returned. -/
theorem exec_rdbit (s : State) :
    exec .rdbit s = .next { s with
      pins := { s.pins with oeN := true }
      answers := s.answers.tail
      drawn := s.drawn + 1
      ret := { s.ret with bit := s.drawAt 0 } } := by
  rw [← draw_eq_drawAt]
  rfl

/-- R133: the sample is taken between the two edges of output-enable. -/
theorem samplePins_rdbitTrace (k : Sink) (p : Pins) : samplePins (rdbitTrace k) p = [{ p with oeN := false }] := rfl

/-- Settles O18: the trace performed in one go, what it commits by chip-enable, and the rule's example. -/
theorem wrbitWritesOneBit : Obligations.WrbitWritesOneBit := fun b s =>
  ⟨rfl, rfl, exec_wrbit b s, committed_wrbitTrace_of_enabled b, committed_wrbitTrace_of_disabled b, by decide⟩

/-- Settles O19: the trace performed in one go, where it samples, and the rule's example. -/
theorem rdbitReturnsOneDraw : Obligations.RdbitReturnsOneDraw := fun s =>
  ⟨rfl, rfl, exec_rdbit s, samplePins_rdbitTrace .none s.pins, by decide, by decide⟩

end Sys2Proof.Machine

/-! ## The two byte procedures (42_byte_transport.md R150 to R159) -/

namespace Sys2Proof.Machine

/-! ### SENDB -/

/-- A trace of pin writes writes the pins and nothing else (R120). -/
theorem performAll_of_pinWrites {xs : List Slot} (h : ∀ x ∈ xs, x.sink = .none ∧ x.op.samples = false) (s : State) :
    performAll xs s = { s with pins := pinsAfter xs s.pins } := by
  induction xs generalizing s with
  | nil => rfl
  | cons x xs ih =>
    obtain ⟨⟨hsink, hsamples⟩, hxs⟩ := List.forall_mem_cons.mp h
    have hx : x.perform s = { s with pins := x.op.onPins s.pins } := by
      simp [Slot.perform, performMicro, hsink, hsamples, Sink.deliver]
    rw [performAll_cons, hx, ih hxs, pinsAfter_cons]

/-- R151: the line is left an output at the last bit, and `oe_n` is untouched. -/
theorem exec_sendb (v : Byte) (s : State) :
    exec (.sendb v) s = .next { s with
      pins := { ceN := true, oeN := s.pins.oeN, weN := true, dqDir := true, dqOut := bitOf v 7 } } := by
  rw [exec_of_procedureTrace rfl, performAll_of_pinWrites fun _ => sendbTrace_plain, pinsAfter_sendbTrace]

/-- Settles O20: `SENDB` is pin writes only, so what it leaves on the pins is all that it does. -/
theorem sendbLeavesLineOutput : Obligations.SendbLeavesLineOutput := fun v s =>
  ⟨exec_sendb v s, sendbTrace_length v, rfl⟩

/-! ### RECVB -/

/-- One bit frame of `RECVB` (R133, R155): the next draw goes to bit `i` of `SHR`. -/
theorem performAll_rdbitTrace_toShr (i : Fin 8) (s : State) :
    performAll (rdbitTrace (.toShr i)) s = { s with
      pins := { s.pins with oeN := true }
      shr := setBit s.shr i (s.drawAt 0)
      answers := s.answers.tail
      drawn := s.drawn + 1
      ret := { s.ret with bit := s.drawAt 0 } } := by
  rw [← draw_eq_drawAt]
  rfl

/-- Bit frames one after the other: where the draws are `f` of the positions, in order of arrival, each position of `SHR`
takes its own. -/
theorem performAll_rdbits {i : Fin 8} {l : List (Fin 8)} {f : Fin 8 → Bool} {s : State}
    (hf : ∀ j k, (i :: l)[j]? = some k → s.drawAt j = f k) :
    performAll ((i :: l).flatMap fun k => rdbitTrace (.toShr k)) s = { s with
      pins := { s.pins with oeN := true }
      shr := (i :: l).foldl (fun w k => setBit w k (f k)) s.shr
      answers := s.answers.drop (l.length + 1)
      drawn := s.drawn + (l.length + 1)
      ret := { s.ret with bit := s.drawAt l.length } } := by
  induction l generalizing i s with
  | nil =>
    have hi : s.drawAt 0 = f i := hf 0 i rfl
    rw [List.flatMap_singleton, performAll_rdbitTrace_toShr]
    simp [hi]
  | cons k l ih =>
    have hi : s.drawAt 0 = f i := hf 0 i rfl
    obtain ⟨hdrawn, hanswers⟩ := performAll_draws (rdbitTrace (.toShr i)) s
    have hlater (j : Nat) : (performAll (rdbitTrace (.toShr i)) s).drawAt j = s.drawAt (j + 1) := by
      rw [Nat.add_comm]
      exact drawAt_shift 1 hanswers hdrawn j
    rw [List.flatMap_cons, performAll_append, ih fun j m hm => (hlater j).trans (hf (j + 1) m hm), hlater,
      performAll_rdbitTrace_toShr, hi]
    simp [Nat.add_assoc, Nat.add_comm 1]

theorem eq_val_of_octet_getElem? {j : Nat} {k : Fin 8} (h : octet[j]? = some k) : j = k.val := by
  obtain ⟨hj, -⟩ := List.getElem?_eq_some_iff.mp h
  obtain rfl : k = ⟨j, hj⟩ := Option.some.inj (h.symm.trans (octet_getElem? ⟨j, hj⟩))
  rfl

/-- The eight bit frames of `RECVB`: draw `i` is bit `i` of the byte (R73 (b)). -/
theorem performAll_octet_rdbits (s : State) :
    performAll (octet.flatMap fun i => rdbitTrace (.toShr i)) s = { s with
      pins := { s.pins with oeN := true }
      shr := assemble fun i => s.drawAt i.val
      answers := s.answers.drop 8
      drawn := s.drawn + 8
      ret := { s.ret with bit := s.drawAt 7 } } := by
  rw [← setBit_octet s.shr]
  exact performAll_rdbits fun j k hj => congrArg s.drawAt (eq_val_of_octet_getElem? hj)

/-- R155, R156: the direction is left an input and chip-enable high, and the byte in `SHR` is returned. -/
theorem exec_recvb (s : State) :
    exec .recvb s = .next { s with
      pins := { s.pins with ceN := true, oeN := true, dqDir := false }
      shr := assemble fun i => s.drawAt i.val
      answers := s.answers.drop 8
      drawn := s.drawn + 8
      ret := { s.ret with bit := s.drawAt 7, byte := assemble fun i => s.drawAt i.val } } := by
  rw [exec_of_procedureTrace rfl, recvbTrace, performAll_append, performAll_append, performAll_octet_rdbits]
  rfl

/-- Settles O21: eight bit frames read one draw each, in wire order. -/
theorem recvbReturnsEightDraws : Obligations.RecvbReturnsEightDraws := fun s =>
  ⟨exec_recvb s, recvbTrace_length .toRet, rfl⟩

/-! ### Bit order (R158) -/

/-- `RECVB` returns the byte that the environment answers in wire order. -/
theorem exec_recvb_of_answered {v : Byte} {s : State} (h : ∀ i : Fin 8, s.drawAt i.val = bitOf v i) :
    ∃ t, exec .recvb s = .next t ∧ t.ret.byte = v ∧ t.shr = v := by
  have hv : assemble (fun i => s.drawAt i.val) = v := byte_ext fun i => by rw [bitOf_assemble, h]
  exact ⟨_, exec_recvb s, hv, hv⟩

/-- Where the listed answers begin with the bits of a byte in wire order, they are the next eight draws. -/
theorem drawAt_of_listed {v : Byte} {s : State} {rest : List Bool} (h : s.answers = octet.map (bitOf v) ++ rest)
    (i : Fin 8) : s.drawAt i.val = bitOf v i := by
  have hlisted : s.answers[i.val]? = some (bitOf v i) := by
    rw [h, List.getElem?_append_left i.isLt, List.getElem?_map, octet_getElem?]
    rfl
  simp [State.drawAt, hlisted]

/-- Settles O25: what `SENDB` commits are the bits of its byte in wire order, and `RECVB` assembles draws in wire order. -/
theorem bitOrderNeverReversed : Obligations.BitOrderNeverReversed := by
  refine ⟨fun v p => committed_sendbTrace v, fun v s => exec_recvb_of_answered, fun v s p rest hp hanswers => ?_⟩
  have hlisted : s.answers = octet.map (bitOf v) ++ rest := by
    apply List.map_injective_iff.mpr (Option.some_injective Bool)
    rw [hanswers, committed_sendbTrace v hp, List.map_append, List.map_map]
    rfl
  obtain ⟨t, ht, hbyte, -⟩ := exec_recvb_of_answered (drawAt_of_listed hlisted)
  exact ⟨t, ht, hbyte⟩

/-! ### Chip-enable (R159) -/

/-- Only `CE_LO` and `CE_HI` move chip-enable (R121, R122). -/
theorem onPins_ceN {u : MicroOp} (hlo : u ≠ .ceLo) (hhi : u ≠ .ceHi) (p : Pins) : (u.onPins p).ceN = p.ceN := by
  cases u with
  | ceLo => exact absurd rfl hlo
  | ceHi => exact absurd rfl hhi
  | _ => rfl

/-- Entered with the chip enabled, entries that do not move chip-enable keep it low until the `CE_HI` after them. -/
theorem ceN_film_until_ceHi {xs : List Slot} (h : ∀ x ∈ xs, x.op ≠ .ceLo ∧ x.op ≠ .ceHi) (k : Sink) {p : Pins}
    (hp : p.ceN = false) :
    (film (xs ++ [⟨.ceHi, k⟩]) p).map (fun g => g.pins.ceN) = List.replicate xs.length false ++ [true] := by
  induction xs generalizing p with
  | nil => rfl
  | cons x xs ih =>
    obtain ⟨⟨hlo, hhi⟩, hxs⟩ := List.forall_mem_cons.mp h
    have hx : (x.op.onPins p).ceN = false := by rw [onPins_ceN hlo hhi, hp]
    rw [List.cons_append, film_cons, List.map_cons, ih hxs hx, hx]
    rfl

/-- R150, R159: low from `CE_LO`, the first micro-operation of `SENDB`, to the closing `CE_HI`. -/
theorem ceN_pinHistory_sendbTrace (v : Byte) (p : Pins) :
    (pinHistory (sendbTrace v) p).map (fun q => q.ceN) = p.ceN :: (List.replicate 34 false ++ [true]) := by
  have hframes : ∀ x ∈ .plain .dqOut :: octet.flatMap (fun i => wrbitTrace (bitOf v i)),
      x.op ≠ .ceLo ∧ x.op ≠ .ceHi := by
    simp [wrbitTrace, Slot.plain, octet]
  have hlow := ceN_film_until_ceHi hframes .none (p := { p with ceN := false }) rfl
  rw [pinHistory, List.map_cons, List.map_map]
  exact congrArg (p.ceN :: false :: ·) hlow

/-- R155, R159: low from `CE_LO`, the second micro-operation of `RECVB`, to the closing `CE_HI`. -/
theorem ceN_pinHistory_recvbTrace (k : Sink) (p : Pins) :
    (pinHistory (recvbTrace k) p).map (fun q => q.ceN) =
      p.ceN :: p.ceN :: (List.replicate 25 false ++ [true]) := by
  have hframes : ∀ x ∈ octet.flatMap (fun i => rdbitTrace (.toShr i)), x.op ≠ .ceLo ∧ x.op ≠ .ceHi := by
    simp [rdbitTrace, Slot.plain, octet]
  have hlow := ceN_film_until_ceHi hframes k (p := { p with dqDir := false, ceN := false }) rfl
  rw [pinHistory, List.map_cons, List.map_map]
  exact congrArg (p.ceN :: p.ceN :: false :: ·) hlow

/-- Settles O24: the opening asserts chip-enable, and no bit frame moves it before the closing `CE_HI`. -/
theorem chipEnableOncePerByte : Obligations.ChipEnableOncePerByte := by
  intro v k p hp
  rw [ceN_pinHistory_sendbTrace, ceN_pinHistory_recvbTrace, hp]
  exact ⟨rfl, rfl⟩

end Sys2Proof.Machine

/-! ## The wake sequence (43_wake_sequence.md R171 to R174) -/

namespace Sys2Proof.Machine

/-! ### The state WAKE leaves (R172, R173) -/

/-- R172: the prime frame reads one bit and discards it, and leaves the line an input. -/
theorem performAll_primeTrace (s : State) :
    performAll primeTrace s = { s with
      pins := { s.pins with ceN := true, oeN := true, dqDir := false }
      answers := s.answers.tail
      drawn := s.drawn + 1
      ret := { s.ret with bit := s.drawAt 0 } } := by
  rw [← draw_eq_drawAt]
  rfl

/-- Eight bytes sent one after the other are pin writes only: the last bit sent stays on the line (R151). -/
theorem performAll_sendbs (f : Fin 8 → Byte) (s : State) :
    performAll (octet.flatMap fun j => sendbTrace (f j)) s = { s with
      pins := { ceN := true, oeN := s.pins.oeN, weN := true, dqDir := true, dqOut := bitOf (f 7) 7 } } := by
  rw [performAll_of_pinWrites, pinsAfter_sendbs]
  intro x hx
  obtain ⟨j, -, hxj⟩ := List.mem_flatMap.mp hx
  exact sendbTrace_plain hxj

/-- Settles O22: the prime frame takes the one draw, and the wake code's bytes set the pins. -/
theorem wakeLeavesPins : Obligations.WakeLeavesPins := by
  intro s
  rw [exec_of_procedureTrace rfl, wakeTrace, performAll_append, performAll_sendbs, performAll_primeTrace]
  rfl

/-! ### The waveform of the prime frame (R174; 00_scope.md R6) -/

/-- The opening of the prime frame: chip-enable, then the direction (R172). -/
def primeOpening : List Slot := [.plain .ceLo, .plain .dqIn]

/-- The prime frame after its opening: the one bit frame, and the closing `CE_HI` (R172). -/
def primeRest : List Slot := rdbitTrace .none ++ [.plain .ceHi]

theorem primeTrace_eq : primeTrace = primeOpening ++ primeRest := rfl

/-- Once the chip is enabled and the line an input, both entries are seen alike: `oe_n` falls and rises, then `ce_n`. -/
theorem changes_primeRest (q : Bool) :
    changes ⟨false, true, true, false, q⟩ (film primeRest ⟨false, true, true, false, q⟩) =
      [⟨false, false, true, false, q⟩, ⟨false, true, true, false, q⟩, ⟨true, true, true, false, q⟩] := by
  simp [primeRest, rdbitTrace, Slot.plain, changes, MicroOp.onPins]

/-- The sample is taken in the vector in which `oe_n` is low, one after the opening's last (R130). -/
theorem positionsFrom_primeRest (n : Nat) (q : Bool) :
    positionsFrom n ⟨false, true, true, false, q⟩ (film primeRest ⟨false, true, true, false, q⟩) = [n + 1] := by
  simp [primeRest, rdbitTrace, Slot.plain, positionsFrom, MicroOp.onPins, MicroOp.samples]

/-- Entered with the line an input, the opening's `DQ_IN` is redundant (R137). -/
theorem changes_opening_of_input (q : Bool) :
    changes ⟨true, true, true, false, q⟩ (film primeOpening ⟨true, true, true, false, q⟩) =
      [⟨false, true, true, false, q⟩] := by
  simp [primeOpening, Slot.plain, changes, MicroOp.onPins]

/-- Entered with the line an output, the opening's `DQ_IN` turns it round, one more vector (R174). -/
theorem changes_opening_of_output (q : Bool) :
    changes ⟨true, true, true, true, q⟩ (film primeOpening ⟨true, true, true, true, q⟩) =
      [⟨false, true, true, true, q⟩, ⟨false, true, true, false, q⟩] := by
  simp [primeOpening, Slot.plain, changes, MicroOp.onPins]

/-- The opening takes no sample, whatever it is entered from. -/
theorem samplePositions_opening (p : Pins) : samplePositions primeOpening p = [] := rfl

theorem pinsAfter_opening (d q : Bool) :
    pinsAfter primeOpening ⟨true, true, true, d, q⟩ = ⟨false, true, true, false, q⟩ := rfl

/-- The waveform of the prime frame and where it samples, from what its opening is seen to do. -/
theorem primeTrace_seen {d q : Bool} {ps : List Pins}
    (h : changes ⟨true, true, true, d, q⟩ (film primeOpening ⟨true, true, true, d, q⟩) = ps) :
    waveform primeTrace ⟨true, true, true, d, q⟩ = ⟨true, true, true, d, q⟩ :: ps ++
      [⟨false, false, true, false, q⟩, ⟨false, true, true, false, q⟩, ⟨true, true, true, false, q⟩] ∧
    samplePositions primeTrace ⟨true, true, true, d, q⟩ = [ps.length + 1] := by
  rw [primeTrace_eq, waveform_append, samplePositions_append, pinsAfter_opening, changes_primeRest,
    positionsFrom_primeRest, samplePositions_opening, waveform, filmWaveform, h]
  exact ⟨rfl, rfl⟩

/-- Settles O44: the entry's direction is seen in the opening alone, as one vector or two before the sample. -/
theorem primeFrameWaveforms : Obligations.PrimeFrameWaveforms := by
  intro q
  obtain ⟨hinput, hinputSample⟩ := primeTrace_seen (changes_opening_of_input q)
  obtain ⟨houtput, houtputSample⟩ := primeTrace_seen (changes_opening_of_output q)
  exact ⟨hinput, hinputSample, houtput, houtputSample⟩

end Sys2Proof.Machine

/-! ## The register codec field by field (44_register_codec.md R190 to R200) -/

namespace Sys2Proof.Machine

/-- R192: the mask leaves the low nibble. -/
theorem and_low_nibble_toNat (b : Byte) : (b &&& 0x0F).toNat = b.toNat % 16 := by
  rw [BitVec.toNat_and]
  exact Nat.and_two_pow_sub_one_eq_mod b.toNat 4

/-- R192: a byte in `0..15` decodes to itself, so the day-of-week is the low nibble of byte 4. -/
theorem regDec_dow_toNat (img : RegisterImage) : (regDec img).dow.toNat = img.b4.toNat % 16 := by
  rw [regDec, bcdDec_toNat, and_low_nibble_toNat]
  omega

theorem regDec_dow (img : RegisterImage) : (regDec img).dow = BitVec.ofNat 8 (img.b4.toNat % 16) := by
  rw [← regDec_dow_toNat, BitVec.ofNat_toNat, BitVec.setWidth_eq]

/-- R202: the high nibble of an encoded day-of-week is masked away, and its units come back. -/
theorem regDec_regEnc_dow (ct : CalendarTime) :
    (regDec (regEnc ct)).dow = BitVec.ofNat 8 (ct.dow.toNat % 10) := by
  rw [regDec_dow, regEnc, bcdEnc_toNat_mod]

/-- R202: where the low nibble of byte 4 is a digit, it is what encoding writes back, the high nibble cleared. -/
theorem regEnc_regDec_b4 {img : RegisterImage} (h : img.b4.toNat % 16 ≤ 9) :
    (regEnc (regDec img)).b4 = img.b4 &&& 0x0F := by
  have hlow : (img.b4 &&& 0x0F).toNat % 16 ≤ 9 := by rwa [and_low_nibble_toNat, Nat.mod_mod]
  exact (bcdEnc_bcdDec_eq_iff _).mpr hlow

/-- Settles O31: only the day-of-week is masked, and its byte decodes to the low nibble. -/
theorem regdecByField : Obligations.RegdecByField := by
  refine ⟨by decide, fun img s => ⟨rfl, ?_⟩⟩
  have hdow : (regDec img).dow = BitVec.ofNat 8 ((img.get 4).toNat % 16) := regDec_dow img
  rw [exec_regdec, ← hdow]
  rfl

/-- Settles O32: `REGENC` is its table of fields, in every state. -/
theorem regencByField : Obligations.RegencByField :=
  ⟨by decide, fun ct s => ⟨rfl, exec_regenc ct s⟩⟩

end Sys2Proof.Machine

/-! ## The round trips of the register codec (44_register_codec.md R202) -/

namespace Sys2Proof.Machine

/-- R202: encoding and decoding, field by field from the inverse law of the BCD codec; the day-of-week comes back as
its units digit. -/
theorem regDec_regEnc {ct : CalendarTime} (hsecond : ct.second.toNat ≤ 159) (hminute : ct.minute.toNat ≤ 159)
    (hhour : ct.hour.toNat ≤ 159) (hdate : ct.date.toNat ≤ 159) (hmonth : ct.month.toNat ≤ 159)
    (hyear : ct.year.toNat ≤ 159) :
    regDec (regEnc ct) = { ct with subsec := 0, dow := BitVec.ofNat 8 (ct.dow.toNat % 10) } := by
  rw [← regDec_regEnc_dow]
  simp only [regDec, regEnc, (bcdDec_bcdEnc_eq_iff _).mpr, hsecond, hminute, hhour, hdate, hmonth, hyear]
  rfl

/-- A day-of-week of one digit is its own units digit. -/
theorem ofNat_mod_ten {d : Byte} (h : d.toNat ≤ 9) : BitVec.ofNat 8 (d.toNat % 10) = d := by
  rw [Nat.mod_eq_of_lt (by omega), BitVec.ofNat_toNat, BitVec.setWidth_eq]

/-- R202: decoding and encoding loses byte 0 and the high nibble of byte 4. -/
theorem regEnc_regDec {img : RegisterImage} (h : ∀ k, (img.get k).toNat % 16 ≤ 9) :
    regEnc (regDec img) = { img with b0 := 0, b4 := img.b4 &&& 0x0F } := by
  have hbyte (k : Fin 8) : bcdEnc (bcdDec (img.get k)) = img.get k := (bcdEnc_bcdDec_eq_iff _).mpr (h k)
  have hb4 : (regEnc (regDec img)).b4 = img.b4 &&& 0x0F := regEnc_regDec_b4 (h 4)
  rw [← hb4, RegisterImage.mk.injEq]
  exact ⟨rfl, hbyte 1, hbyte 2, hbyte 3, rfl, hbyte 5, hbyte 6, hbyte 7⟩

theorem and_low_nibble_eq_self {b : Byte} (h : b.toNat / 16 = 0) : b &&& 0x0F = b := by
  apply BitVec.eq_of_toNat_eq
  rw [and_low_nibble_toNat]
  omega

/-- The documented ranges of R11 lie inside those of the round trip. -/
theorem roundTripRange_of_documented {ct : CalendarTime} (h : ct.documented = true) :
    ct.second.toNat ≤ 159 ∧ ct.minute.toNat ≤ 159 ∧ ct.hour.toNat ≤ 159 ∧ ct.date.toNat ≤ 159 ∧
      ct.month.toNat ≤ 159 ∧ ct.year.toNat ≤ 159 ∧ ct.dow.toNat ≤ 9 := by
  simp only [CalendarTime.documented, Bool.and_eq_true, decide_eq_true_eq] at h
  omega

/-- Settles O33: from the two exact laws, with the values the masked and dropped parts leave alone. -/
theorem registerCodecRoundTrips : Obligations.RegisterCodecRoundTrips := by
  refine ⟨fun ct hs hmi hh hd hmo hy => ?_, fun ct hdoc hsub => ?_, fun _ => regEnc_regDec, fun img hlow h0 h4 => ?_⟩
  · have hround := regDec_regEnc hs hmi hh hd hmo hy
    exact ⟨hround, fun hdow => by rw [hround, ofNat_mod_ten hdow]⟩
  · obtain ⟨hs, hmi, hh, hd, hmo, hy, hdow⟩ := roundTripRange_of_documented hdoc
    rw [regDec_regEnc hs hmi hh hd hmo hy, ofNat_mod_ten hdow, ← hsub]
  · rw [regEnc_regDec hlow, and_low_nibble_eq_self h4, ← h0]

end Sys2Proof.Machine

/-! ## Acceptance of a command (45_session_driver.md R213 to R221) -/

namespace Sys2Proof.Machine

theorem exec_rdcyc_of_idle {s : State} (hb : s.busy = false) : exec .rdcyc s = .next (acceptCycle false s) := by
  simp [exec, execRdcyc, hb]

theorem exec_wrcyc_of_idle (ct : CalendarTime) {s : State} (hb : s.busy = false) :
    exec (.wrcyc ct) s =
      .next (acceptCycle true { s with img := regEnc ct, ret := { s.ret with image := regEnc ct } }) := by
  simp [exec, execWrcyc, hb]

theorem exec_rdcyc_of_busy {s : State} (hb : s.busy = true) : exec .rdcyc s = .next s := by
  simp [exec, execRdcyc, hb]

theorem exec_wrcyc_of_busy (ct : CalendarTime) {s : State} (hb : s.busy = true) : exec (.wrcyc ct) s = .next s := by
  simp [exec, execWrcyc, hb]

/-- Settles O36, command by command, idle and busy. -/
theorem commandsAccept : Obligations.CommandsAccept := fun _ ct =>
  ⟨rfl, exec_rdcyc_of_idle, exec_wrcyc_of_idle ct, fun hb => ⟨exec_rdcyc_of_busy hb, exec_wrcyc_of_busy ct hb⟩⟩

/-- R214: while a cycle runs, every command code behaves as `NOP`. -/
theorem exec_command_of_busy (p : InputFrame) {s : State} (hb : s.busy = true) : exec (commandOf p) s = .next s := by
  rw [commandOf_eq]
  split_ifs
  · exact exec_rdcyc_of_busy hb
  · exact exec_wrcyc_of_busy _ hb
  · rfl

theorem accepted_of_nop {p : InputFrame} (h : p.cmd = 0b00 ∨ p.cmd = 0b11) (s : State) : accepted p s = s := by
  obtain h | h := h <;> simp [accepted, h]

/-- Only an accepted write writes `IMG` and a returned value (R213). -/
theorem accepted_img_ret {p : InputFrame} (h : p.cmd ≠ 0b10) (s : State) :
    (accepted p s).img = s.img ∧ (accepted p s).ret = s.ret := by
  unfold accepted
  rw [if_neg h]
  split_ifs <;> exact ⟨rfl, rfl⟩

@[simp] theorem accepted_shr (p : InputFrame) (s : State) : (accepted p s).shr = s.shr := by
  unfold accepted; split_ifs <;> rfl
@[simp] theorem accepted_answers (p : InputFrame) (s : State) : (accepted p s).answers = s.answers := by
  unfold accepted; split_ifs <;> rfl

/-- Settles O37: a busy block keeps its state, and an idle one takes the command as `accepted` says. -/
theorem commandsFrame : Obligations.CommandsFrame := by
  intro p s t ht
  cases hb : s.busy with
  | true =>
    obtain rfl : s = t := Host.Outcome.next.inj ((exec_command_of_busy p hb).symm.trans ht)
    simp
  | false =>
    obtain rfl : accepted p s = t := Host.Outcome.next.inj ((exec_command_of_idle p hb).symm.trans ht)
    refine ⟨by simp, by simp, by simp, by simp, by simp, by simp, by simp, fun h => accepted_img_ret h s, fun h => ?_⟩
    obtain h | h | h := h
    · exact accepted_of_nop (.inl h) s
    · exact accepted_of_nop (.inr h) s
    · cases h

end Sys2Proof.Machine

/-! ## The operation a step fetches (45_session_driver.md R211) -/

namespace Sys2Proof.Machine

theorem fetch_of_idle {s : State} (hb : s.busy = false) : s.fetch = some (commandOf s.ports) := by
  simp [State.fetch, hb]

theorem fetch_of_run {s : State} {n : Nat} {x : Slot} (hb : s.busy = true) (hs : s.seq = .run n)
    (hx : s.trace[n]? = some x) : s.fetch = some x.op.instr := by
  simp [State.fetch, State.slot, hb, hs, hx]

/-- Settles O7: the equations of the idle step and of the run step, read as `exec` of what is fetched. -/
theorem stepRunsFetchedOperation : Obligations.StepRunsFetchedOperation := by
  intro s hr
  refine ⟨fun hb => ⟨fetch_of_idle hb, ?_⟩, fun n x hb hs hx => ⟨fetch_of_run (s := takeInputs s) hb hs hx, ?_⟩⟩
  · have hexec := exec_command_of_idle s.nextFrame (s := takeInputs s) hb
    rw [step_of_idle hr hb hexec, hexec]
    rfl
  · rw [step_of_run hr hb hs hx, exec_micro]
    rfl

/-! ### A step always answers (45_session_driver.md R212; 60_exceptions.md R240, R246) -/

/-- An index of the current cycle has an entry (R16). -/
theorem exists_slot {s : State} {n : Nat} (hn : n ≤ lastIndex s.kind) : ∃ x, s.trace[n]? = some x :=
  ⟨_, List.getElem?_eq_getElem (by rw [trace_length]; omega)⟩

/-- Settles O47: reset and an idle step always answer, and by the invariant a run step finds its micro-operation. -/
theorem alwaysANextState : Obligations.AlwaysANextState := by
  intro s h
  cases hr : s.nextFrame.rst with
  | true => exact ⟨_, step_of_reset hr⟩
  | false =>
    cases hs : s.seq with
    | idle => exact ⟨_, step_eq_accepted hr ((inv_iff_of_idle hs).mp h).1⟩
    | run n =>
      obtain ⟨hb, -, hn, -⟩ := (inv_iff_of_run hs).mp h
      obtain ⟨x, hx⟩ := exists_slot hn
      exact ⟨_, step_of_run hr hb hs hx⟩

end Sys2Proof.Machine

/-! ## What a step reads of the host's levels (45_session_driver.md R212 to R216; 70_reset_and_hazards.md R281) -/

namespace Sys2Proof.Machine

/-- The same machine with other levels on the input ports. -/
def State.withPorts (q : InputFrame) (s : State) : State := { s with ports := q }

theorem perform_withPorts (q : InputFrame) (x : Slot) (s : State) :
    x.perform (s.withPorts q) = (x.perform s).withPorts q := by
  obtain ⟨u, k⟩ := x
  cases k <;> cases u <;> rfl

theorem advance_withPorts (q : InputFrame) (n : Nat) (s : State) :
    advance n (s.withPorts q) = (advance n s).withPorts q := by
  unfold advance
  rw [apply_ite (State.withPorts q)]
  rfl

/-- The calendar on `ct_in` matters to an accepted write only (R213). -/
theorem accepted_withPorts {p : InputFrame} (h : p.cmd ≠ 0b10) (w : BitVec 64) (q : InputFrame) (s : State) :
    accepted { p with ctIn := w } (s.withPorts q) = (accepted p s).withPorts q := by
  simp only [accepted, if_neg h]
  rw [apply_ite (State.withPorts q)]
  rfl

/-- Two hosts that agree on `rst` in this step, and whose levels an idle block takes alike: the second machine makes the
same step with its own levels on the ports. -/
theorem step_of_other_frame {s t : State} {p q : InputFrame} {rest : List InputFrame} (hrst : p.rst = q.rst)
    (hidle : s.busy = false → p.rst = false → ∀ v : State, accepted q (v.withPorts q) = (accepted p v).withPorts q)
    (ht : step { s with inputs := p :: rest } = .next t) :
    ∃ a, t = settled a ∧ step { s with inputs := q :: rest } = .next (settled (a.withPorts q)) := by
  let s' : State := { s with inputs := q :: rest }
  have htake : takeInputs s' = (takeInputs { s with inputs := p :: rest }).withPorts q := rfl
  obtain ⟨hr, rfl⟩ | ⟨hr, hb, rfl⟩ | ⟨hr, hb, n, x, hs, hx, rfl⟩ := step_cases ht
  · exact ⟨_, rfl, step_of_reset (s := s') (hrst.symm.trans hr)⟩
  · have hidle' := hidle hb hr (takeInputs { s with inputs := p :: rest })
    rw [← htake] at hidle'
    exact ⟨_, rfl, (step_eq_accepted (s := s') (hrst.symm.trans hr) hb).trans (congrArg (Host.Outcome.next ∘ settled) hidle')⟩
  · refine ⟨_, rfl, ?_⟩
    rw [← advance_withPorts, ← perform_withPorts, ← htake]
    exact step_of_run (hrst.symm.trans hr) hb hs hx

theorem settled_withPorts_sameBlock (q : InputFrame) (s : State) :
    SameBlock (settled s) (settled (s.withPorts q)) := ⟨rfl, rfl, rfl, rfl, rfl, rfl, rfl⟩

/-- Settles O39: the levels go to the ports, and a run step copies them without reading them. -/
theorem busyIgnoresTheHost : Obligations.BusyIgnoresTheHost := by
  intro s t p q rest hb hrst ht
  obtain ⟨a, rfl, hu⟩ := step_of_other_frame hrst (fun hidle => absurd (hb.symm.trans hidle) (by decide)) ht
  exact ⟨_, hu, settled_withPorts_sameBlock q a, rfl, rfl, rfl, rfl⟩

theorem SameBlock.refl (s : State) : SameBlock s s := ⟨rfl, rfl, rfl, rfl, rfl, rfl, rfl⟩

theorem SameBlock.trans {s t u : State} (h : SameBlock s t) (g : SameBlock t u) : SameBlock s u := by
  obtain ⟨h1, h2, h3, h4, h5, h6, h7⟩ := h
  obtain ⟨g1, g2, g3, g4, g5, g6, g7⟩ := g
  exact ⟨g1.trans h1, g2.trans h2, g3.trans h3, g4.trans h4, g5.trans h5, g6.trans h6, g7.trans h7⟩

/-- What a host reads depends on the block only (R15, R20). -/
theorem SameBlock.reads {s t : State} (h : SameBlock s t) :
    t.readImage = s.readImage ∧ t.readCalendar = s.readCalendar := by
  obtain ⟨-, himg, -, -, -, hvalid, -⟩ := h
  simp [State.readImage, State.readCalendar, himg, hvalid]

/-- The first entry of either cycle is `CE_LO` (R16). -/
theorem trace_getElem?_zero (s : State) : s.trace[0]? = some (.plain .ceLo) := by
  unfold State.trace
  split <;> rfl

/-- Settles O10: an idle step is `accepted`, code by code; and only an idle `accepted` with code `10` reads `ct_in`. -/
theorem idleStepAcceptance : Obligations.IdleStepAcceptance := by
  refine ⟨fun s t p w rest h ht => ?_, fun s hb hr => ?_⟩
  · have hidle (hb : s.busy = false) (hr : p.rst = false) : p.cmd ≠ 0b10 := by simpa [hb, hr] using h
    obtain ⟨a, rfl, hu⟩ := step_of_other_frame (p := p) (q := { p with ctIn := w }) rfl
      (fun hb hr => accepted_withPorts (hidle hb hr) w _) ht
    exact ⟨_, hu, settled_withPorts_sameBlock _ a⟩
  · refine ⟨_, step_eq_accepted hr hb, accepted_pins _ _, accepted_shr _ _, accepted_answers _ _, accepted_drawn _ _,
      fun h => ?_, fun h => ?_, fun h => ?_⟩
    · rw [accepted_of_nop h]
      exact SameBlock.refl s
    · rw [accepted_of_read h]
      exact ⟨rfl, rfl, rfl, rfl, rfl, trace_getElem?_zero _⟩
    · rw [accepted_of_write h]
      exact ⟨rfl, rfl, rfl, rfl, rfl, trace_getElem?_zero _⟩

/-- An idle step in which the host asks for nothing keeps the block, and the host goes on (R216). -/
theorem step_of_nop {s : State} (hb : s.busy = false) (hr : (s.frameAt 0).rst = false)
    (hc : (s.frameAt 0).cmd = 0b00 ∨ (s.frameAt 0).cmd = 0b11) :
    ∃ t, step s = .next t ∧ SameBlock s t ∧ ∀ j, t.frameAt j = s.frameAt (j + 1) := by
  rw [← nextFrame_eq_frameAt] at hr hc
  refine ⟨_, step_eq_accepted hr hb, ?_⟩
  rw [accepted_of_nop hc]
  exact ⟨SameBlock.refl s, frameAt_takeInputs s⟩

theorem runSteps_of_nops (n : Nat) {s : State} (hb : s.busy = false)
    (h : ∀ j < n, (s.frameAt j).rst = false ∧ ((s.frameAt j).cmd = 0b00 ∨ (s.frameAt j).cmd = 0b11)) :
    ∃ t, runSteps n s = .next t ∧ SameBlock s t := by
  induction n generalizing s with
  | zero => exact ⟨s, rfl, SameBlock.refl s⟩
  | succ n ih =>
    obtain ⟨hr, hc⟩ := h 0 (by omega)
    obtain ⟨u, hu, hsame, hframe⟩ := step_of_nop hb hr hc
    have hub : u.busy = false := by
      obtain ⟨-, -, -, -, hbusy, -, -⟩ := hsame
      exact hbusy.trans hb
    obtain ⟨t, ht, hrest⟩ := ih hub fun j hj => by rw [hframe]; exact h (j + 1) (by omega)
    exact ⟨t, by rw [runSteps_succ n hu, ht], hsame.trans hrest⟩

/-- Settles O38, by induction on the number of steps; what a host reads goes with the block. -/
theorem nopHoldsForever : Obligations.NopHoldsForever := by
  intro n s hb h
  obtain ⟨t, ht, hsame⟩ := runSteps_of_nops n hb h
  exact ⟨t, ht, hsame, hsame.reads⟩

end Sys2Proof.Machine

/-! ## Where a read cycle delivers (30_encoding.md R73; 45_session_driver.md R212, R219) -/

namespace Sys2Proof.Machine

/-- The three entries of bit frame `i` of `RECVB`. -/
theorem recvbTrace_getElem? (k : Sink) (i : Fin 8) {m : Nat} (hm : m < 3) :
    (recvbTrace k)[2 + 3 * i.val + m]? = (rdbitTrace (.toShr i))[m]? := by
  rw [recvbTrace, List.getElem?_append_left (by simp [octet, rdbitTrace]; omega)]
  exact getElem?_opening_frames (xs := [.plain .dqIn, .plain .ceLo]) (m := 3) (fun _ => rfl) i hm

/-- Sample `i` of `RECVB` number `k` of a read cycle. -/
theorem readTrace_sample (k i : Fin 8) :
    readTrace[289 + 27 * k.val + 3 * i.val]? = some ⟨.dqSmp, .toShr i⟩ := by
  have hbyte := readTrace_getElem? k (n := 2 + 3 * i.val + 1) (by omega)
  rw [recvbTrace_getElem? _ i (by omega)] at hbyte
  exact (congrArg _ (by omega)).trans hbyte

/-- The `CE_HI` that ends `RECVB` number `k` of a read cycle. -/
theorem readTrace_end (k : Fin 8) : readTrace[312 + 27 * k.val]? = some ⟨.ceHi, .toImg k⟩ :=
  (congrArg _ (by omega)).trans (readTrace_getElem? k (n := 26) (by omega))

/-- What an entry of `RECVB` delivers: a sample its bit, the closing `CE_HI` the byte, all others nothing. -/
theorem recvbTrace_cases {k : Sink} {m : Nat} {x : Slot} (h : (recvbTrace k)[m]? = some x) :
    x.sink = .none ∨ (∃ i : Fin 8, m = 3 + 3 * i.val ∧ x.sink = .toShr i) ∨ (m = 26 ∧ x.sink = k) := by
  have hm : m < 27 := (List.getElem?_eq_some_iff.mp h).1
  by_cases hopening : m < 2
  · interval_cases m <;> cases h <;> exact .inl rfl
  by_cases hend : m = 26
  · subst hend
    cases h
    exact .inr (.inr ⟨rfl, rfl⟩)
  obtain ⟨i, r, hr, rfl⟩ : ∃ (i : Fin 8) (r : Nat), r < 3 ∧ m = 2 + 3 * i.val + r :=
    ⟨⟨(m - 2) / 3, by omega⟩, (m - 2) % 3, by omega, by simp only; omega⟩
  rw [recvbTrace_getElem? k i hr] at h
  interval_cases r <;> cases h
  · exact .inl rfl
  · exact .inr (.inl ⟨i, by omega, rfl⟩)
  · exact .inl rfl

/-- What an entry of a read cycle delivers, and where it stands. -/
theorem readTrace_cases {n : Nat} {x : Slot} (h : readTrace[n]? = some x) :
    x.sink = .none ∨ (∃ k i : Fin 8, n = 289 + 27 * k.val + 3 * i.val ∧ x.sink = .toShr i) ∨
      ∃ k : Fin 8, n = 312 + 27 * k.val ∧ x.sink = .toImg k := by
  have hn : n < 502 := by simpa using (List.getElem?_eq_some_iff.mp h).1
  by_cases hwake : n < 286
  · rw [readTrace, List.getElem?_append_left (by rw [wakeTrace_length]; exact hwake)] at h
    exact .inl (wakeTrace_sink (List.mem_of_getElem? h))
  obtain ⟨k, m, hm, rfl⟩ : ∃ (k : Fin 8) (m : Nat), m < 27 ∧ n = 286 + 27 * k.val + m :=
    ⟨⟨(n - 286) / 27, by omega⟩, (n - 286) % 27, by omega, by simp only; omega⟩
  rw [readTrace_getElem? k hm] at h
  obtain hnone | ⟨i, rfl, hsink⟩ | ⟨rfl, hsink⟩ := recvbTrace_cases h
  · exact .inl hnone
  · exact .inr (.inl ⟨k, i, by omega, hsink⟩)
  · exact .inr (.inr ⟨k, by omega, hsink⟩)

/-- What an entry of either cycle delivers: nothing but at the samples and ends of a read cycle's `RECVB`s (R61). -/
theorem trace_cases {s : State} {n : Nat} {x : Slot} (h : s.trace[n]? = some x) :
    x.sink = .none ∨
      s.kind = false ∧ ((∃ k i : Fin 8, n = 289 + 27 * k.val + 3 * i.val ∧ x.sink = .toShr i) ∨
        ∃ k : Fin 8, n = 312 + 27 * k.val ∧ x.sink = .toImg k) := by
  cases hk : s.kind with
  | true => exact .inl (writeTrace_sink (img := s.img) (by simpa [State.trace, hk] using List.mem_of_getElem? h))
  | false => simpa using readTrace_cases (n := n) (x := x) (by simpa [State.trace, hk] using h)

/-! ### What a run step does to `SHR` and `IMG` -/

theorem perform_shr {x : Slot} (h : ∀ i, x.sink ≠ .toShr i) (s : State) : (x.perform s).shr = s.shr := by
  obtain ⟨u, k⟩ := x
  cases k with
  | toShr i => exact absurd rfl (h i)
  | _ => simp [Slot.perform]

theorem perform_img {x : Slot} (h : ∀ k, x.sink ≠ .toImg k) (s : State) : (x.perform s).img = s.img :=
  performAll_img (xs := [x]) (by simpa using h) s

/-- R155: a sample inside `RECVB` writes its bit of `SHR` and no other. -/
theorem perform_sample_shr (i j : Fin 8) (s : State) :
    bitOf (Slot.perform ⟨.dqSmp, .toShr i⟩ s).shr j = if j = i then s.draw else bitOf s.shr j :=
  bitOf_setBit s.shr i j s.draw

/-- Settles O11: the run step of `step_of_run`; where its entry delivers is `trace_cases`. -/
theorem runStepEffect : Obligations.RunStepEffect := by
  intro s n h hs hr
  obtain ⟨hb, hv, hn, -⟩ := (inv_iff_of_run hs).mp h
  obtain ⟨x, hx⟩ := exists_slot hn
  obtain ⟨-, fbusy, fvalid, fkind, -⟩ := perform_frame x (takeInputs s)
  have hread (hk : s.kind = false) : readTrace[n]? = some x := by simpa [State.trace, hk] using hx
  refine ⟨x, _, hx, step_of_run hr hb hs hx, ?_, ?_, ?_, fun k i hk hat => ?_, fun hnot => ?_, fun k hk hat => ?_,
    fun hnot => ?_, fun hlast => ?_, fun hlast => ?_⟩
  · simp
  · simp [fkind]
  · simpa using (perform_draws x (takeInputs s)).2.1
  · obtain rfl := Option.some.inj ((hread hk).symm.trans (hat ▸ readTrace_sample k i))
    exact ⟨rfl, fun j => (congrArg (bitOf · j) (advance_shr n _)).trans (perform_sample_shr i j (takeInputs s))⟩
  · refine (advance_shr n _).trans (perform_shr (fun i hi => ?_) (takeInputs s))
    obtain hnone | ⟨hk, ⟨k, j, hat, -⟩ | ⟨k, -, himg⟩⟩ := trace_cases hx
    · simp [hnone] at hi
    · exact hnot.elim (by simp [hk]) fun hnot => hnot k j hat
    · simp [himg] at hi
  · obtain rfl := Option.some.inj ((hread hk).symm.trans (hat ▸ readTrace_end k))
    exact advance_img n _
  · refine (advance_img n _).trans (perform_img (fun k hi => ?_) (takeInputs s))
    obtain hnone | ⟨hk, ⟨k, j, -, hshr⟩ | ⟨k, hat, -⟩⟩ := trace_cases hx
    · simp [hnone] at hi
    · simp [hshr] at hi
    · exact hnot.elim (by simp [hk]) fun hnot => hnot k hat
  · have hlast' : n = lastIndex s.kind := hlast
    simp [settled, fkind, hlast']
  · have hlast' : n ≠ lastIndex s.kind := hlast
    simp [settled, fkind, hlast', fbusy, fvalid, hb, hv]

end Sys2Proof.Machine

/-! ## Whole cycles (45_session_driver.md R217 to R223) -/

namespace Sys2Proof.Machine

/-- From acceptance on, with the block at `u`: after `j` run steps the first `j` micro-operations of the cycle are
performed, and after the last one the cycle is complete. -/
theorem runSteps_cycle {s u : State} (hb : s.busy = false) (hu : accepted s.nextFrame (takeInputs s) = u)
    (ubusy : u.busy = true) (useq : u.seq = .run 0) (hr : ∀ j ≤ lastIndex u.kind + 1, (s.frameAt j).rst = false) :
    (∀ j ≤ lastIndex u.kind, ∃ t, runSteps (j + 1) s = .next t ∧ t.seq = .run j ∧ t.busy = true ∧ t.valid = u.valid ∧
      t.kind = u.kind ∧ Agree (performAll (u.trace.take j) u) t) ∧
    ∃ t, runSteps (lastIndex u.kind + 1 + 1) s = .next t ∧ t.seq = .idle ∧ t.busy = false ∧ t.valid = true ∧
      t.kind = u.kind ∧ Agree (performAll u.trace u) t := by
  have hstep : step s = .next (settled u) := by
    rw [← hu]
    exact step_eq_accepted (by rw [nextFrame_eq_frameAt]; exact hr 0 (by omega)) hb
  have hframe : ∀ j, (settled u).frameAt j = s.frameAt (j + 1) := fun j => by
    rw [← frameAt_takeInputs]
    exact frameAt_congr (by simp [← hu]) (by simp [← hu]) j
  have hagree (xs : List Slot) {t : State} (h : Agree (performAll xs (settled u)) t) : Agree (performAll xs u) t :=
    ((agree_settled u).performAll xs).trans h
  refine ⟨fun j hj => ?_, ?_⟩
  · obtain ⟨t, ht, tseq, tbusy, tvalid, tkind, -, -, tagree⟩ :=
      runSteps_running (s := settled u) (n := 0) j ubusy useq (by simpa using hj) fun i hi => by
        rw [hframe]
        exact hr (i + 1) (by omega)
    exact ⟨t, by rw [runSteps_succ j hstep, ht], by rw [tseq, Nat.zero_add], tbusy, tvalid, tkind, hagree _ tagree⟩
  · obtain ⟨t, ht, tkind, -, tidle, tagree, -⟩ :=
      runSteps_through (s := settled u) (n := 0) (lastIndex u.kind) ubusy useq (by simp) fun i hi => by
        rw [hframe]
        exact hr (i + 1) (by omega)
    obtain ⟨tseq, tbusy, tvalid⟩ := tidle (Nat.zero_add _)
    rw [settled_trace, List.drop_zero, ← trace_length u, List.take_length] at tagree
    exact ⟨t, by rw [runSteps_succ _ hstep, ht], tseq, tbusy, tvalid, tkind, hagree _ tagree⟩

/-- The `DQ_SMP` column of R71's table counts the samples. -/
theorem samples_of_opCounts {xs : List Slot} {lo hi oe smp : Nat} {row : List Nat}
    (h : opCounts xs = lo :: hi :: oe :: smp :: row) : xs.countP (fun x => x.op.samples) = smp := by
  simp only [opCounts, List.cons.injEq] at h
  obtain ⟨-, -, -, hsmp, -⟩ := h
  rw [← hsmp]
  exact List.countP_congr fun x _ => by simp [samples_iff]

theorem samples_recvbTrace (k : Sink) : (recvbTrace k).countP (fun x => x.op.samples) = 8 :=
  samples_of_opCounts (opCounts_recvbTrace k)

theorem samples_wakeTrace : wakeTrace.countP (fun x => x.op.samples) = 1 := samples_of_opCounts opCounts_wakeTrace

/-- R218: 65 draws. -/
theorem samples_readTrace : readTrace.countP (fun x => x.op.samples) = 65 := samples_of_opCounts opCounts_readTrace

/-- R222: one draw, the throwaway bit of `WAKE`. -/
theorem samples_writeTrace (img : RegisterImage) : (writeTrace img).countP (fun x => x.op.samples) = 1 :=
  samples_of_opCounts (opCounts_writeTrace img)

/-! ### The image a read cycle reads -/

/-- The draws to come after a trace: those after as many as it has samples. -/
theorem performAll_drawAt (xs : List Slot) (s : State) (j : Nat) :
    (performAll xs s).drawAt j = s.drawAt (xs.countP (fun x => x.op.samples) + j) := by
  obtain ⟨hdrawn, hanswers⟩ := performAll_draws xs s
  exact drawAt_shift _ hanswers hdrawn j

/-- R219: the byte of `RECVB` goes to `IMG[k]`. -/
theorem performAll_recvb_img (k : Fin 8) (s : State) :
    (performAll (recvbTrace (.toImg k)) s).img = s.img.set k (assemble fun i => s.drawAt i.val) := by
  rw [recvbTrace, performAll_append, performAll_append, performAll_octet_rdbits]
  rfl

/-- `RECVB`s one after the other: where each eight draws assemble to `f` of their byte's position, each position of `IMG`
takes its own byte. -/
theorem performAll_recvbs_img {l : List (Fin 8)} {f : Fin 8 → Byte} {s : State}
    (hf : ∀ j k, l[j]? = some k → assemble (fun i => s.drawAt (8 * j + i.val)) = f k) :
    (performAll (l.flatMap fun k => recvbTrace (.toImg k)) s).img = l.foldl (fun img k => img.set k (f k)) s.img := by
  induction l generalizing s with
  | nil => rfl
  | cons k l ih =>
    have hk : assemble (fun i => s.drawAt i.val) = f k := by simpa using hf 0 k rfl
    have hlater (j : Nat) (m : Fin 8) (hm : l[j]? = some m) :
        assemble (fun i => (performAll (recvbTrace (.toImg k)) s).drawAt (8 * j + i.val)) = f m := by
      simp only [performAll_drawAt, samples_recvbTrace, ← hf (j + 1) m hm]
      congr 1
      funext i
      congr 1
      omega
    rw [List.flatMap_cons, performAll_append, ih hlater, performAll_recvb_img, hk, List.foldl_cons]

/-- Writing the eight bytes of an image makes it. -/
theorem set_octet (f : Fin 8 → Byte) (img : RegisterImage) :
    octet.foldl (fun img k => img.set k (f k)) img = RegisterImage.ofFn f := rfl

/-- R218: draw 0 is the throwaway bit of `WAKE`, and draw `1 + 8k + i` is `IMG[k][i]`. -/
theorem performAll_readTrace_img (s : State) (k i : Fin 8) :
    bitOf ((performAll readTrace s).img.get k) i = s.drawAt (1 + 8 * k.val + i.val) := by
  have himg : (performAll readTrace s).img =
      RegisterImage.ofFn fun k => assemble fun i => (performAll wakeTrace s).drawAt (8 * k.val + i.val) := by
    rw [readTrace, performAll_append, ← set_octet _ (performAll wakeTrace s).img]
    exact performAll_recvbs_img fun j k hj => by rw [eq_val_of_octet_getElem? hj]
  rw [himg, RegisterImage.get_ofFn, bitOf_assemble, performAll_drawAt, samples_wakeTrace, Nat.add_assoc]

/-! ### The two cycles -/

theorem frames_not_reset {s : State} {m : Nat} (h0 : (s.frameAt 0).rst = false)
    (h : ∀ j, 1 ≤ j → j ≤ m → (s.frameAt j).rst = false) (j : Nat) (hj : j ≤ m) : (s.frameAt j).rst = false := by
  cases j with
  | zero => exact h0
  | succ j => exact h _ (by omega) hj

theorem reads_of_valid {s : State} (h : s.valid = true) :
    s.readImage = some s.img ∧ s.readCalendar = some (regDec s.img) := by
  simp [State.readImage, State.readCalendar, h]

/-- Settles O54: run steps perform the trace of the cycle, and what performing it does. -/
theorem readCycle : Obligations.ReadCycle := by
  intro s hb hr0 hc hr
  rw [← nextFrame_eq_frameAt] at hc
  obtain ⟨hduring, t, ht, tseq, tbusy, tvalid, tkind, tpins, timg, -, -, tdrawn, -⟩ :=
    runSteps_cycle hb (accepted_of_read hc _) rfl rfl (frames_not_reset (m := 502) hr0 hr)
  refine ⟨fun j hj => ?_, t, ht, tseq, tbusy, tvalid, tkind, ?_, fun k i => ?_, ?_, reads_of_valid tvalid⟩
  · obtain ⟨u, hu, useq, ubusy, uvalid, ukind, upins, -⟩ := hduring j hj
    exact ⟨u, hu, useq, ubusy, uvalid, ukind, upins.trans (performAll_pins _ _)⟩
  · exact tpins.trans ((performAll_pins _ _).trans (pinsAfter_readTrace _))
  · rw [timg]
    exact performAll_readTrace_img _ k i
  · rw [tdrawn, (performAll_draws _ _).1]
    exact congrArg _ samples_readTrace

/-- Settles O55: as the read cycle, and no entry of a write cycle delivers anything. -/
theorem writeCycle : Obligations.WriteCycle := by
  intro s hb hr0 hc hr img
  have himg : regEnc (CalendarTime.ofPort s.nextFrame.ctIn) = img := by rw [nextFrame_eq_frameAt]
  rw [← nextFrame_eq_frameAt] at hc
  have haccepted := accepted_of_write hc (takeInputs s)
  rw [himg] at haccepted
  have hsink {x : Slot} (hx : x ∈ writeTrace img) : x.sink = .none := writeTrace_sink hx
  obtain ⟨hduring, t, ht, tseq, tbusy, tvalid, tkind, tpins, timg, tshr, -, tdrawn, -⟩ :=
    runSteps_cycle hb haccepted rfl rfl (frames_not_reset (m := 566) hr0 hr)
  have himg_t : t.img = img := timg.trans (performAll_img (fun x hx k => by simp [hsink hx]) _)
  refine ⟨fun j hj => ?_, t, ht, tseq, tbusy, tvalid, tkind, himg_t, ?_, ?_, ?_, himg_t ▸ reads_of_valid tvalid⟩
  · obtain ⟨u, hu, useq, ubusy, uvalid, ukind, upins, uimg, -⟩ := hduring j hj
    refine ⟨u, hu, useq, ubusy, uvalid, ukind, uimg.trans (performAll_img (fun x hx k => ?_) _),
      upins.trans (performAll_pins _ _)⟩
    simp [hsink (List.mem_of_mem_take hx)]
  · exact tpins.trans ((performAll_pins _ _).trans (pinsAfter_writeTrace img _))
  · rw [tdrawn, (performAll_draws _ _).1]
    exact congrArg _ (samples_writeTrace img)
  · exact tshr.trans (performAll_shr (fun _ => hsink) _)

end Sys2Proof.Machine

/-! ## A step with `rst` asserted (70_reset_and_hazards.md R270) -/

namespace Sys2Proof.Machine

/-- Settles O12: the step is `resetBlock` on the levels just taken. Reset sets the pins, `SEQ` and the flags to constants;
neither it nor the codecs evaluated after it touch the answers or the draws, so no sample is taken. -/
theorem resetStepDominates : Obligations.ResetStepDominates := by
  intro s hr
  exact ⟨_, step_of_reset hr, rfl, rfl, rfl, rfl, rfl, rfl, rfl⟩

end Sys2Proof.Machine
